-- ==== Sys2Proof/Word.lean ====
section
/-! DEFINITION. The two word types of the CORE (00_scope.md R3, R110): bytes and 32-bit values. -/

namespace Sys2Proof

/-- A byte of the stream, of a slice or of an encoding: 8 bits, bit 7 the most significant (R110). -/
abbrev Byte := BitVec 8

/-- A value, a length, a position or a host data word: XLEN = LENW = POSW = 32 (R3, R21). -/
abbrev Word := BitVec 32

end Sys2Proof
end

