-- ==== Sys2Proof/Syntax.lean ====
section
/-! DEFINITION. The eight commands of the CORE (30_encoding.md R47, R49), one constructor per row of the opcode table. -/

namespace Sys2Proof

/-- A command. `b` is the document's `bias` argument, the `B` bit of the command word, which only the three unsigned
operations with such an argument have (R48, R50). -/
inductive Instr where
  /-- ENCU, `encode_unsigned(value, bias)` (R60). -/
  | encu (b : Bool)
  /-- DECU, `decode_unsigned(bytes, bias)` (R63). -/
  | decu (b : Bool)
  /-- ENCS, `encode_signed(value)` (R66). -/
  | encs
  /-- DECS, `decode_signed(bytes)` (R69). -/
  | decs
  /-- PEEKU, `peek_size_unsigned(stream)` (R73). -/
  | peeku
  /-- PEEKS, `peek_size_signed(stream)` (R74). -/
  | peeks
  /-- DSTRU, `decode_stream_unsigned(stream, bias)` (R76). -/
  | dstru (b : Bool)
  /-- DSTRS, `decode_stream_signed(stream)` (R77). -/
  | dstrs
  deriving DecidableEq, Repr

end Sys2Proof
end

