-- ==== Sys2Proof/WellFormed.lean ====
section
/-! DEFINITION. Which command words are legal (30_encoding.md R48, R52), and the well-formedness of a command. -/

namespace Sys2Proof

/-- Field `OPC` of a command word: bits 2:0 (R48). -/
def CommandWord.opc (w : Byte) : BitVec 3 := w.extractLsb' 0 3

/-- Field `B` of a command word: bit 3 (R48). -/
def CommandWord.biasBit (w : Byte) : Bool := w.getLsbD 3

/-- The reserved field of a command word: bits 7:4 (R48). -/
def CommandWord.reserved (w : Byte) : BitVec 4 := w.extractLsb' 4 4

/-- The operations with a `bias` argument: ENCU 0, DECU 1, DSTRU 6 (R49, R50). -/
def CommandWord.takesBias (opc : BitVec 3) : Bool := opc == 0#3 || opc == 1#3 || opc == 6#3

/-- First check of R52: bits 7:4 are zero. -/
def CommandWord.reservedZero (w : Byte) : Bool := CommandWord.reserved w == 0#4

/-- Second check of R52: `B = 1` only with an operation that has a bias argument. -/
def CommandWord.biasAllowed (w : Byte) : Bool := !CommandWord.biasBit w || CommandWord.takesBias (CommandWord.opc w)

/-- A legal command word (R52): both checks hold. -/
def CommandWord.legal (w : Byte) : Bool := CommandWord.reservedZero w && CommandWord.biasAllowed w

/-- The opcode map (R49): `OPC` is the index of the operation. -/
def Instr.opc : Instr → BitVec 3
  | .encu _ => 0#3
  | .decu _ => 1#3
  | .encs => 2#3
  | .decs => 3#3
  | .peeku => 4#3
  | .peeks => 5#3
  | .dstru _ => 6#3
  | .dstrs => 7#3

/-- The `B` bit of a command: its bias argument, 0 where it has none (R50). -/
def Instr.bias : Instr → Bool
  | .encu b => b
  | .decu b => b
  | .encs => false
  | .decs => false
  | .peeku => false
  | .peeks => false
  | .dstru b => b
  | .dstrs => false

/-- A command is well formed when its `B` bit is allowed with its operation (R50, R52). The type leaves no room for a
bias on the other five, so every term is well formed; the checks that can fail are those on raw words above. -/
def Instr.wf (i : Instr) : Bool := !i.bias || CommandWord.takesBias i.opc

end Sys2Proof
end

