-- ==== Sys2Proof/Decode.lean ====
section
/-! DEFINITION. The command word (30_encoding.md R48 to R52, R58): decoder, encoder, and the opcode table's word. -/

namespace Sys2Proof

/-- Why a byte is no command word (R52). Both reasons complete `IllegalCommand` (R87). -/
inductive DecodeError where
  /-- Bits 7:4 are not zero. Raised by `decode`; safe, the spec's own rule. -/
  | reservedBits (bits : BitVec 4)
  /-- `B = 1` with an operation that has no bias argument. Raised by `decode`; safe, the spec's own rule. -/
  | biasNotAllowed (opc : BitVec 3)
  deriving DecidableEq, Repr

/-- The operation `OPC` names, given the `B` bit (R49). -/
def decodeOpc (opc : BitVec 3) (b : Bool) : Instr :=
  match opc.toNat with
  | 0 => .encu b
  | 1 => .decu b
  | 2 => .encs
  | 3 => .decs
  | 4 => .peeku
  | 5 => .peeks
  | 6 => .dstru b
  | _ => .dstrs

/-- Decode a command word, legality checks first (R52, R58, R89). Total: every byte is a command or is rejected by
name. -/
def decode (w : Byte) : Except DecodeError Instr :=
  if CommandWord.reservedZero w then
    if CommandWord.biasAllowed w then .ok (decodeOpc (CommandWord.opc w) (CommandWord.biasBit w))
    else .error (.biasNotAllowed (CommandWord.opc w))
  else .error (.reservedBits (CommandWord.reserved w))

/-- The command byte of the 32-bit word a host writes to `CMD`: its low 8 bits, the rest ignored (R7, R21, R48). -/
def commandByte (w : Word) : Byte := w.setWidth 8

/-- Encode a command: `0000 B OPC` (R48, R49). -/
def encode (i : Instr) : Byte := 0#4 ++ BitVec.ofBool i.bias ++ i.opc

/-- What the decoder reads from a word of the opcode table: the host writes it to `CMD`, zero above `nbits`. -/
def decodeTableWord (nbits w : Nat) : Option Instr :=
  match decode (commandByte (BitVec.ofNat 32 (w % 2 ^ nbits))) with
  | .ok i => some i
  | .error _ => none

end Sys2Proof
end

