-- ==== Sys2Proof/Config.lean ====
section
/-! DEFINITION. What is fixed for the machine (00_scope.md R3) and the free values behind UNSPEC
(10_state.md R19, 93_implementation_defined.md U1 to U3). -/

namespace Sys2Proof

/-- MAXLEN: the longest encoding, and the longest slice a decoder accepts, in bytes (R3). -/
def Config.maxLen : Nat := 5

/-- GROUP: payload bits per encoded byte (R3). -/
def Config.group : Nat := 7

/-- The word an UNSPEC `RVAL` answers a host read with, as a function of the draw (R19, U1 to U3). No body:
nothing is known of it. -/
opaque Config.unspecRval : Nat → Word

/-- The value an UNSPEC `RSIZE` answers with: any 3-bit value, 0, 6 and 7 among them (R19, U3). -/
opaque Config.unspecRsize : Nat → BitVec 3

/-- The byte an UNSPEC `OB[i]` answers with: first argument the index `i`, second the draw (R19). The seven
registers have seven functions, so their draws are independent (U1). -/
opaque Config.unspecOb : Nat → Nat → Byte

end Sys2Proof
end

