-- ==== Sys2Proof/Machine/State.lean ====
section
/-! DEFINITION. State as plain data (10_state.md R6, R27), the host's pending moves, the reasons a step can stop, and reset. -/

namespace Sys2Proof.Machine

/-- The five values of `STATUS` (R8, 93 U7: codes 5 to 7 are never produced, so the type has five values). -/
inductive Status where
  /-- 0: no command has completed since reset. -/
  | none
  /-- 1: the last command succeeded. -/
  | ok
  /-- 2: the document's one error kind. -/
  | invalidVarint
  /-- 3: the last command read the stream at a position `>= SLEN`. -/
  | streamEnd
  /-- 4: the last word written to `CMD` encodes no command. -/
  | illegalCommand
  deriving DecidableEq, Repr

/-- What a command can raise (R82, R111). -/
inductive Failure where
  | invalidVarint
  | streamEnd
  | illegalCommand
  deriving DecidableEq, Repr

/-- The content of a result register of width `w` (R19): a value the last command defined, or the spec's `UNSPEC`.
An `UNSPEC` register holds a value at every moment, a free one (`Result.value`); the spec promises nothing of it, not even that two
reads agree. -/
inductive Result (w : Nat) where
  /-- Written with a defined value by the last command. -/
  | known (v : BitVec w)
  /-- `UNSPEC(w)`. -/
  | unspec
  deriving DecidableEq, Repr

/-- The seven result registers, as one command leaves them (R17, R19). -/
structure Results where
  /-- `RVAL` (R12). -/
  rval : Result 32
  /-- `RSIZE` (R13). -/
  rsize : Result 3
  /-- `OB[0..4]` (R14). -/
  ob : Vector (Result 8) 5
  deriving DecidableEq, Repr

/-- The stream `(SLEN, S)` (R31): `SLEN <= 2^32 - 1`, and the bytes at positions `0 .. SLEN-1` as cells in canonical form
(`Memory.wf`); an unlisted position below `SLEN` reads as `Memory.unlisted`. -/
structure Memory where
  /-- `SLEN`. -/
  slen : Fin 4294967296
  /-- The listed bytes of `S`. -/
  cells : List Host.Cell
  deriving DecidableEq, Repr

/-- The byte an unlisted position of the stream reads as. Every stream is written in this form, so the choice limits no
stream the host can attach (notes/assumptions/3.md). -/
def Memory.unlisted : Byte := 0#8

/-- The canonical form from address `lo` on: addresses strictly rising, all below `hi`, no entry equal to what an
unlisted address reads as. -/
def Memory.cellsWf (hi : Nat) : Nat → List Host.Cell → Bool
  | _, [] => true
  | lo, (a, b) :: rest => decide (lo ≤ a) && decide (a < hi) && (b != Memory.unlisted) && Memory.cellsWf hi (a + 1) rest

/-- The canonical form of the stream. -/
def Memory.wf (m : Memory) : Bool := Memory.cellsWf m.slen.val 0 m.cells

/-- A stream of length 0. -/
def Memory.empty : Memory := ⟨0, []⟩

/-- The registers by name (R6). `IB` and `OB` are the two five-byte files (R25). -/
inductive Reg where
  | cmd
  | status
  | vin
  | ilen
  | ib (i : Fin 5)
  | rval
  | rsize
  | ob (i : Fin 5)
  | pos
  deriving DecidableEq, Repr

/-- A move of the world outside the CORE, served one at a time and complete before the next (R4, R29, R41, R42). -/
inductive HostMove where
  /-- `HostWrite(reg, w)` (R29). A write of register 0 runs a command. -/
  | write (reg : Nat) (w : Word)
  /-- `HostRead(reg)` (R30). -/
  | read (reg : Nat)
  /-- The one reset (R97). -/
  | reset
  /-- The host supplies a stream: `SLEN` and `S` anew (R31, R42, R99). -/
  | attach (bytes : List Byte)
  /-- The host, or another agent, changes one byte of the stream between commands (R42, R104). -/
  | poke (p : Nat) (b : Byte)
  /-- The host reads one byte of the stream by its own means, outside the CORE (R28, R80). -/
  | fetch (p : Nat)
  deriving DecidableEq, Repr

/-- The machine: the CORE's registers (R6; `CMD` stores nothing, R7, and has no field), the stream the host owns (R31), and the
model's own fields. -/
structure State where
  /-- `STATUS` (R8). -/
  status : Status
  /-- `VIN` (R9). -/
  vin : Word
  /-- `ILEN` (R10). -/
  ilen : Word
  /-- `IB[0..4]` (R11). -/
  ib : Vector Byte 5
  /-- `RVAL` (R12). -/
  rval : Result 32
  /-- `RSIZE` (R13). -/
  rsize : Result 3
  /-- `OB[0..4]` (R14). -/
  ob : Vector (Result 8) 5
  /-- `POS` (R15). -/
  pos : Word
  /-- The stream (R31): not CORE state, the host's memory. -/
  stream : Memory
  /-- The model's own: the host's moves still to be served, first one first (R24: a program is the host's list of accesses). -/
  pending : List HostMove
  /-- The model's own: the words `HostRead` and `fetch` have answered, oldest first (R30). -/
  replies : List Word
  /-- The model's own: which draw of the free values an UNSPEC register answers with next (R19). -/
  draws : Nat
  deriving DecidableEq, Repr

/-- Why a step faults: never. Every command completes (R81), a read past the stream's end completes `StreamEnd`
(R33), so no meaning and no host move raises a fault; the type has no constructor. -/
inductive Fault where
  deriving DecidableEq, Repr

/-- Why a step is refused. -/
inductive Refusal where
  /-- An instruction with no meaning yet. Raised by no arm of `exec`; safe. -/
  | notModelled (mnemonic : String)
  /-- A host access to register number 17 or above, which the spec gives no meaning (R22, 93 U6). Raised by serving a host
  access; safe, the spec's own "refuse". -/
  | reservedRegister (reg : Nat)
  /-- A stream longer than `2^32 - 1` bytes, which R31 rules out. Raised by serving `attach`; safe. -/
  | streamTooLong (length : Nat)
  /-- A change or a read by the host of a byte at a position `>= SLEN`, which holds no byte (R31, R38). Raised by serving
  `poke` and `fetch`; safe. -/
  | noSuchPosition (p : Nat)
  deriving DecidableEq, Repr

/-- Every result register UNSPEC (R19, R84). -/
def Results.unspec : Results :=
  { rval := .unspec, rsize := .unspec, ob := #v[.unspec, .unspec, .unspec, .unspec, .unspec] }

/-- The machine right after reset (R27, R97): the table's values, the result registers UNSPEC. The stream is whatever the
host supplies; here none is attached yet, and no host move is pending. -/
def State.reset : State where
  status := .none
  vin := 0#32
  ilen := 0#32
  ib := #v[0#8, 0#8, 0#8, 0#8, 0#8]
  rval := Results.unspec.rval
  rsize := Results.unspec.rsize
  ob := Results.unspec.ob
  pos := 0#32
  stream := Memory.empty
  pending := []
  replies := []
  draws := 0

end Sys2Proof.Machine
end

