-- ==== Sys2Proof/Machine/Flags.lean ====
section
/-! DEFINITION. The CORE's only status flag, `STATUS` (10_state.md R8, R23; 60_exceptions.md R81, R82): its codes and what each failure
writes there. -/

namespace Sys2Proof.Machine

/-- Field `ST` of `STATUS`: the 3-bit code (R8, R81). -/
def Status.code : Status → BitVec 3
  | .none => 0#3
  | .ok => 1#3
  | .invalidVarint => 2#3
  | .streamEnd => 3#3
  | .illegalCommand => 4#3

/-- The status each failure is reported as (R82). -/
def Failure.status : Failure → Status
  | .invalidVarint => .invalidVarint
  | .streamEnd => .streamEnd
  | .illegalCommand => .illegalCommand

end Sys2Proof.Machine
end

