-- ==== Sys2Proof/Machine/Ops.lean ====
section
/-! DEFINITION. The named operations over stream and registers: reading the stream (20_memory.md R33), changing it
between commands (R42), the two completions of a command (60_exceptions.md R83, R84), register numbers and values (10_state.md R6, R20, R21), and reset
(70_reset_and_hazards.md R97). -/

namespace Sys2Proof.Machine

/-- The byte a list of cells gives for an address. -/
def cellsGet : List Host.Cell → Nat → Byte
  | [], _ => Memory.unlisted
  | (a, b) :: rest, p => if a = p then b else cellsGet rest p

/-- Set one byte, keeping the canonical form: writing what an unlisted address reads as removes the entry. -/
def cellsSet : List Host.Cell → Nat → Byte → List Host.Cell
  | [], p, b => if b = Memory.unlisted then [] else [(p, b)]
  | (a, c) :: rest, p, b =>
    if a < p then (a, c) :: cellsSet rest p b
    else if a = p then if b = Memory.unlisted then rest else (p, b) :: rest
    else if b = Memory.unlisted then (a, c) :: rest
    else (p, b) :: (a, c) :: rest

/-- The cells of a byte sequence laid from position `p` on. -/
def cellsOfBytes : Nat → List Byte → List Host.Cell
  | _, [] => []
  | p, b :: rest => if b = Memory.unlisted then cellsOfBytes (p + 1) rest else (p, b) :: cellsOfBytes (p + 1) rest

/-- `MemRead(p, 1)` (R33): the byte `S[p]` below `SLEN`, else `raise StreamEnd`. Positions are natural numbers and do not wrap
(R39). It changes nothing. -/
def memRead (m : Memory) (p : Nat) : Except Failure Byte :=
  if p < m.slen.val then .ok (cellsGet m.cells p) else .error .streamEnd

/-- Change the byte at a position of the stream, by the host or another agent between commands (R42); none where the
position does not exist (R31). -/
def pokeByte (m : Memory) (p : Nat) (b : Byte) : Option Memory :=
  if p < m.slen.val then some { m with cells := cellsSet m.cells p b } else none

/-- The stream whose bytes are the given ones (R31); none where they are more than `2^32 - 1`. -/
def streamOf (bytes : List Byte) : Option Memory :=
  if h : bytes.length < 4294967296 then some ⟨⟨bytes.length, h⟩, cellsOfBytes 0 bytes⟩ else none

/-- A completion (R81): `STATUS` and all seven result registers are written, each with the command's value or UNSPEC (R19, R83, R84);
no other register changes. The next UNSPEC answer is a new draw. -/
def State.complete (s : State) (st : Status) (r : Results) : State :=
  { s with status := st, rval := r.rval, rsize := r.rsize, ob := r.ob, draws := s.draws + 1 }

/-- Failure completion (R84), the CORE's only "trap entry": the code in `STATUS`, the result registers UNSPEC, every other
register as when the command started. Nothing is saved and control goes nowhere (R90). -/
def State.fail (s : State) (f : Failure) : State := s.complete f.status Results.unspec

/-- What a command does when nothing is raised: its result registers, and `POS` (R83). -/
structure Effect where
  results : Results
  pos : Word
  deriving DecidableEq, Repr

/-- End a command (R83, R84): its writes take effect only where nothing was raised. -/
def State.finish (s : State) (o : Except Failure Effect) : State :=
  match o with
  | .ok e => { s.complete .ok e.results with pos := e.pos }
  | .error f => s.fail f

/-- The value a result register holds: what the last command defined, else the free value given (R12 to R14, R19). -/
def Result.value {w : Nat} (free : BitVec w) : Result w → BitVec w
  | .known v => v
  | .unspec => free

/-- The register of a register number; numbers 17 and above are reserved (R6, R22). -/
def Reg.ofNumber : Nat → Option Reg
  | 0 => some .cmd
  | 1 => some .status
  | 2 => some .vin
  | 3 => some .ilen
  | 4 => some (.ib 0)
  | 5 => some (.ib 1)
  | 6 => some (.ib 2)
  | 7 => some (.ib 3)
  | 8 => some (.ib 4)
  | 9 => some .rval
  | 10 => some .rsize
  | 11 => some (.ob 0)
  | 12 => some (.ob 1)
  | 13 => some (.ob 2)
  | 14 => some (.ob 3)
  | 15 => some (.ob 4)
  | 16 => some .pos
  | _ => none

/-- The number of a register (R6). -/
def Reg.number : Reg → Nat
  | .cmd => 0
  | .status => 1
  | .vin => 2
  | .ilen => 3
  | .ib i => 4 + i.val
  | .rval => 9
  | .rsize => 10
  | .ob i => 11 + i.val
  | .pos => 16

/-- What a host read of a register returns: its value zero-extended to 32 bits, 0 for `CMD` (R20, R21, R30); an UNSPEC
register answers with the free value of the current draw (R30). -/
def State.regValue (s : State) : Reg → Word
  | .cmd => 0#32
  | .status => s.status.code.setWidth 32
  | .vin => s.vin
  | .ilen => s.ilen
  | .ib i => (s.ib[i]).setWidth 32
  | .rval => s.rval.value (Config.unspecRval s.draws)
  | .rsize => (s.rsize.value (Config.unspecRsize s.draws)).setWidth 32
  | .ob i => ((s.ob[i]).value (Config.unspecOb i.val s.draws)).setWidth 32
  | .pos => s.pos

/-- `HostRead` (R30): the answer goes to the host and no register changes; the next UNSPEC answer is a new draw, since two
reads need not agree (R19). -/
def State.answer (s : State) (r : Reg) : State :=
  { s with replies := s.replies ++ [s.regValue r], draws := s.draws + 1 }

/-- Store to a register by the host (R20, R21, R29): the low bits of the word, truncated to the register's width. `STATUS` and
the result registers are read-only: a write to one is ignored. `CMD` stores nothing (R7); running its word is
`hostWrite`'s. -/
def State.storeReg (s : State) (r : Reg) (w : Word) : State :=
  match r with
  | .vin => { s with vin := w }
  | .ilen => { s with ilen := w }
  | .ib i => { s with ib := s.ib.set i (w.setWidth 8) }
  | .pos => { s with pos := w }
  | .cmd => s
  | .status => s
  | .rval => s
  | .rsize => s
  | .ob _ => s

/-- Reset (R97, R98): every register at its reset value, the stream untouched. The host's moves and the answers it
holds are not the CORE's. -/
def State.resetCore (s : State) : State :=
  { State.reset with stream := s.stream, pending := s.pending, replies := s.replies, draws := s.draws + 1 }

end Sys2Proof.Machine
end

