-- ==== Sys2Proof/Machine/Operands.lean ====
section
/-! DEFINITION. The operands: the fields of a wire byte (30_encoding.md R45, R46), the canonical lengths (00_scope.md R112), the slice of DECU and DECS
(10_state.md R10, R11), the scan (40_unsigned_codec.md R62), and the stream's probe and read phase (42_stream_probe.md R72, R75). -/

namespace Sys2Proof.Machine

/-- Bit `C` of a wire byte, the continuation flag: mask `0x80` (R45). -/
def contBit (b : Byte) : Bool := b &&& 0x80#8 != 0#8

/-- Bit 6 of a wire byte, the sign bit of its group: mask `0x40` (R45, R68). -/
def signBit (b : Byte) : Bool := b &&& 0x40#8 != 0#8

/-- Field `G` of a wire byte, the payload group as a number: mask `0x7F` (R45). -/
def groupOf (b : Byte) : Nat := (b &&& 0x7F#8).toNat

/-- A wire byte with the continuation flag set, from its group (R45). -/
def withCont (b : Byte) : Byte := b ||| 0x80#8

/-- `usize` (R112): the canonical unsigned length of a value. -/
def usize (v : Word) : Nat :=
  if v.toNat < 2 ^ 7 then 1
  else if v.toNat < 2 ^ 14 then 2
  else if v.toNat < 2 ^ 21 then 3
  else if v.toNat < 2 ^ 28 then 4
  else 5

/-- `ssize` (R112): the canonical signed length of an integer in `[-2^31, 2^31)`. -/
def ssize (s : Int) : Nat :=
  if -2 ^ 6 ≤ s ∧ s < 2 ^ 6 then 1
  else if -2 ^ 13 ≤ s ∧ s < 2 ^ 13 then 2
  else if -2 ^ 20 ≤ s ∧ s < 2 ^ 20 then 3
  else if -2 ^ 27 ≤ s ∧ s < 2 ^ 27 then 4
  else 5

/-- `sum over i of (b[i] & 0x7F) << (7*i)` (R46): the payload of a wire sequence, least-significant group first. -/
def payload : List Byte → Nat
  | [] => 0
  | b :: rest => groupOf b + payload rest * 2 ^ 7

/-- The bias of a command as a number: 1 when `B = 1` (R59). -/
def biasValue (b : Bool) : Word := if b then 1#32 else 0#32

/-- The slice of DECU and DECS, bytes `IB[0 .. ILEN-1]`; `raise InvalidVarint` where `ILEN` is 0 or above 5, before any byte is
read (R10, R63, R69, R89). -/
def State.slice (s : State) : Except Failure (List Byte) :=
  if s.ilen = 0#32 ∨ Config.maxLen < s.ilen.toNat then .error .invalidVarint
  else .ok (s.ib.toList.take s.ilen.toNat)

/-- What a scan returns (R62): the accumulator, the number of bytes consumed, the last byte consumed. -/
structure Scan where
  acc : Nat
  k : Nat
  last : Byte
  deriving DecidableEq, Repr

/-- The scan's loop (R62), from the `k`-th byte on. -/
def scanFrom (acc k : Nat) (last : Byte) : List Byte → Scan
  | [] => ⟨acc, k, last⟩
  | byte :: rest =>
    if contBit byte then scanFrom (acc ||| groupOf byte <<< (7 * k)) (k + 1) byte rest
    else ⟨acc ||| groupOf byte <<< (7 * k), k + 1, byte⟩

/-- `scan(n)` over the bytes of a slice (R62): stops at the first terminator or at the slice's end. -/
def scan (bytes : List Byte) : Scan := scanFrom 0 0 0#8 bytes

/-- The probe's loop (R72): `c` bytes have been examined, at most `more + 1` are still to be. -/
def probeFrom (m : Memory) (p0 c : Nat) : Nat → Except Failure (Nat × Byte)
  | 0 =>
    match memRead m (p0 + c) with
    | .ok byte => .ok (c + 1, byte)
    | .error f => .error f
  | more + 1 =>
    match memRead m (p0 + c) with
    | .ok byte => if contBit byte then probeFrom m p0 (c + 1) more else .ok (c + 1, byte)
    | .error f => .error f

/-- `probe(p0)` (R72): the count of bytes up to the first terminator, at most 5, and the last byte examined; `StreamEnd` where
a read is past the stream's end. -/
def probe (m : Memory) (p0 : Nat) : Except Failure (Nat × Byte) := probeFrom m p0 0 (Config.maxLen - 1)

/-- The read phase of a stream decode (R75): the `c` bytes from position `p` on. -/
def readn (m : Memory) (p : Nat) : Nat → Except Failure (List Byte)
  | 0 => .ok []
  | c + 1 =>
    match memRead m p with
    | .ok byte =>
      match readn m (p + 1) c with
      | .ok rest => .ok (byte :: rest)
      | .error f => .error f
    | .error f => .error f

/-- `OB[i]` after an encode that produced the given bytes (R14): byte `i`, or UNSPEC from `RSIZE` on. -/
def producedByte (bytes : List Byte) (i : Nat) : Result 8 :=
  match bytes[i]? with
  | some b => .known b
  | none => .unspec

/-- The results of an encode (R14, R17): the bytes in `OB`, their number in `RSIZE`, the rest UNSPEC. -/
def encodeResults (bytes : List Byte) : Results where
  rval := .unspec
  rsize := .known (BitVec.ofNat 3 bytes.length)
  ob := #v[producedByte bytes 0, producedByte bytes 1, producedByte bytes 2, producedByte bytes 3, producedByte bytes 4]

/-- The results of a decode (R12, R13, R17): the value in `RVAL`, the size in `RSIZE`, `OB` UNSPEC. -/
def decodeResults (val : Word) (size : Nat) : Results :=
  { Results.unspec with rval := .known val, rsize := .known (BitVec.ofNat 3 size) }

/-- The results of a peek (R13, R17): the count in `RSIZE`, the rest UNSPEC. -/
def peekResults (count : Nat) : Results :=
  { Results.unspec with rsize := .known (BitVec.ofNat 3 count) }

end Sys2Proof.Machine
end

