-- ==== Sys2Proof/Machine/Signed.lean ====
section
/-! DEFINITION. The signed codec (41_signed_codec.md): ENCS and DECS. Registers only, no stream access (R65). -/

namespace Sys2Proof.Machine

/-- `s & 0x7F` of an integer (R66): the low 7 bits of its two's-complement pattern, as a byte with bit 7 clear. -/
def low7Int (s : Int) : Byte := BitVec.ofInt 8 s &&& 0x7F#8

/-- ENCS's loop for a non-negative value (R66): continue while it exceeds 63. `s / 128` is the shift by 7, rounding towards minus
infinity (R110). The first argument bounds the passes. -/
def encsNonneg : Nat → Int → List Byte
  | 0, s => [low7Int s]
  | n + 1, s => if 63 < s then withCont (low7Int s) :: encsNonneg n (s / 128) else [low7Int s]

/-- ENCS's loop for a negative value (R66): continue while it is below -64. -/
def encsNeg : Nat → Int → List Byte
  | 0, s => [low7Int s]
  | n + 1, s => if s < -64 then withCont (low7Int s) :: encsNeg n (s / 128) else [low7Int s]

/-- The bytes of `encode_signed(value)` (R66). The loops run at most 4 times and then emit the final group (R108). -/
def encodeSigned (value : Word) : List Byte :=
  if 0 ≤ value.toInt then encsNonneg (Config.maxLen - 1) value.toInt else encsNeg (Config.maxLen - 1) value.toInt

/-- Sign extension (R68): where bit 6 of the last byte consumed is set, every bit of `acc` from `7k` up becomes 1, which is
`acc | -(1 << 7k)`, that is `sext_{7k}(acc)`. -/
def signExtend (acc k : Nat) (last : Byte) : Int :=
  if signBit last then (acc % 2 ^ (Config.group * k) : Nat) - (2 ^ (Config.group * k) : Nat) else acc

/-- The value of a signed payload (R69, R77): sign-extended, then reduced modulo 2^32. -/
def signedValue (acc k : Nat) (last : Byte) : Word := BitVec.ofInt 32 (signExtend acc k last)

/-- `decode_signed` on the bytes of a slice (R69): the scan and the sign extension; no terminator check. -/
def decodeSigned (bytes : List Byte) : Word :=
  signedValue (scan bytes).acc (scan bytes).k (scan bytes).last

/-- DECS's effect on the state it starts in (R69): `RSIZE` is the input length `ILEN`. -/
def decsEffect (s : State) : Except Failure Effect :=
  match s.slice with
  | .error f => .error f
  | .ok bytes => .ok ⟨decodeResults (decodeSigned bytes) s.ilen.toNat, s.pos⟩

/-- ENCS (R66). It cannot fail (R93). -/
def execEncs (s : State) : Host.Outcome State Fault Refusal :=
  .next (s.finish (.ok ⟨encodeResults (encodeSigned s.vin), s.pos⟩))

/-- DECS (R69). -/
def execDecs (s : State) : Host.Outcome State Fault Refusal :=
  .next (s.finish (decsEffect s))

end Sys2Proof.Machine
end

