-- ==== Sys2Proof/Machine/Unsigned.lean ====
section
/-! DEFINITION. The unsigned codec (40_unsigned_codec.md): ENCU and DECU. Registers only, no stream access (R59). -/

namespace Sys2Proof.Machine

/-- The low 7 bits of a value, as a byte with bit 7 clear. -/
def low7 (v : Word) : Byte := v.setWidth 8 &&& 0x7F#8

/-- ENCU's loop (R60): emit the low 7 bits, shift right by 7 zero-filled, stop when nothing remains. The first argument bounds
the passes; five are enough for 32 bits. -/
def encuLoop : Nat → Word → List Byte
  | 0, _ => []
  | n + 1, v =>
    if v >>> 7 = 0#32 then [low7 v] else withCont (low7 v) :: encuLoop n (v >>> 7)

/-- The bytes of `encode_unsigned(value, bias)` (R60): the loop on `(value + B) mod 2^32`. -/
def encodeUnsigned (b : Bool) (value : Word) : List Byte := encuLoop Config.maxLen (value + biasValue b)

/-- The value of an unsigned payload (R63): reduced modulo 2^32, then the bias subtracted, wrapping. -/
def unsignedValue (b : Bool) (acc : Nat) : Word := BitVec.ofNat 32 acc - biasValue b

/-- `decode_unsigned` on the bytes of a slice (R63): the scan, the terminator check, the value. -/
def decodeUnsigned (b : Bool) (bytes : List Byte) : Except Failure Word :=
  if contBit (scan bytes).last then .error .invalidVarint else .ok (unsignedValue b (scan bytes).acc)

/-- DECU's effect on the state it starts in (R63): `RSIZE` is the input length `ILEN`. -/
def decuEffect (b : Bool) (s : State) : Except Failure Effect :=
  match s.slice with
  | .error f => .error f
  | .ok bytes =>
    match decodeUnsigned b bytes with
    | .error f => .error f
    | .ok val => .ok ⟨decodeResults val s.ilen.toNat, s.pos⟩

/-- ENCU (R60). It cannot fail (R93). -/
def execEncu (b : Bool) (s : State) : Host.Outcome State Fault Refusal :=
  .next (s.finish (.ok ⟨encodeResults (encodeUnsigned b s.vin), s.pos⟩))

/-- DECU (R63). -/
def execDecu (b : Bool) (s : State) : Host.Outcome State Fault Refusal :=
  .next (s.finish (decuEffect b s))

end Sys2Proof.Machine
end

