-- ==== Sys2Proof/Machine/StreamUnit.lean ====
section
/-! DEFINITION. The stream family (42_stream_probe.md): PEEKU, PEEKS, DSTRU and DSTRS. They read the stream and `POS`, and neither
`VIN` nor the slice (R71). -/

namespace Sys2Proof.Machine

/-- The probe of the unsigned commands (R73, R76): it fails where five bytes hold no terminator. -/
def probeUnsigned (m : Memory) (p0 : Nat) : Except Failure Nat :=
  match probe m p0 with
  | .error f => .error f
  | .ok (c, last) => if contBit last then .error .invalidVarint else .ok c

/-- The probe of the signed commands (R74, R77): no terminator check. -/
def probeSigned (m : Memory) (p0 : Nat) : Except Failure Nat :=
  match probe m p0 with
  | .error f => .error f
  | .ok (c, _) => .ok c

/-- A peek's effect from its probe's count (R73, R74): `POS` is not moved. -/
def peekEffect (s : State) (count : Except Failure Nat) : Except Failure Effect :=
  match count with
  | .error f => .error f
  | .ok c => .ok ⟨peekResults c, s.pos⟩

/-- A stream decode's effect from its probe's count (R75 to R77): read the same bytes again, advance `POS` past them, decode.
`POS + c` does not wrap (R39). -/
def streamEffect (s : State) (count : Except Failure Nat) (value : List Byte → Word) : Except Failure Effect :=
  match count with
  | .error f => .error f
  | .ok c =>
    match readn s.stream s.pos.toNat c with
    | .error f => .error f
    | .ok t => .ok ⟨decodeResults (value t) c, BitVec.ofNat 32 (s.pos.toNat + c)⟩

/-- PEEKU (R73). -/
def execPeeku (s : State) : Host.Outcome State Fault Refusal :=
  .next (s.finish (peekEffect s (probeUnsigned s.stream s.pos.toNat)))

/-- PEEKS (R74). -/
def execPeeks (s : State) : Host.Outcome State Fault Refusal :=
  .next (s.finish (peekEffect s (probeSigned s.stream s.pos.toNat)))

/-- DSTRU (R76): the value is that of the payload's groups, less the bias. -/
def execDstru (b : Bool) (s : State) : Host.Outcome State Fault Refusal :=
  .next (s.finish (streamEffect s (probeUnsigned s.stream s.pos.toNat) fun t => unsignedValue b (payload t)))

/-- DSTRS (R77): the sign is bit 6 of the last byte read. -/
def execDstrs (s : State) : Host.Outcome State Fault Refusal :=
  .next (s.finish (streamEffect s (probeSigned s.stream s.pos.toNat) fun t =>
    signedValue (payload t) t.length (t.getLastD 0#8)))

end Sys2Proof.Machine
end

