-- ==== Sys2Proof/Machine/Dispatch.lean ====
section
/-! DEFINITION. Dispatch of a decoded command to its meaning (30_encoding.md R58), one arm per constructor. -/

namespace Sys2Proof.Machine

def exec (i : Instr) (s : State) : Host.Outcome State Fault Refusal :=
  match i with
  | .encu b => Sys2Proof.Machine.execEncu b s
  | .decu b => Sys2Proof.Machine.execDecu b s
  | .encs => Sys2Proof.Machine.execEncs s
  | .decs => Sys2Proof.Machine.execDecs s
  | .peeku => Sys2Proof.Machine.execPeeku s
  | .peeks => Sys2Proof.Machine.execPeeks s
  | .dstru b => Sys2Proof.Machine.execDstru b s
  | .dstrs => Sys2Proof.Machine.execDstrs s

end Sys2Proof.Machine
end

