-- ==== Sys2Proof/Machine/HostAccess.lean ====
section
/-! DEFINITION. Serving the moves of the world outside the CORE: `HostWrite` and `HostRead` (20_memory.md R29, R30), running a command word
(30_encoding.md R58), reset (R97), and changes of the stream between commands (R42). -/

namespace Sys2Proof.Machine

/-- Execute a command byte to completion (R58): an illegal one completes `IllegalCommand` before any operand is read (R87). -/
def runCommand (w : Byte) (s : State) : Host.Outcome State Fault Refusal :=
  match decode w with
  | .ok i => exec i s
  | .error _ => .next (s.fail .illegalCommand)

/-- `HostWrite(reg, w)` (R29): register 0 runs the command of the low byte; a reserved number is refused (R22). -/
def hostWrite (reg : Nat) (w : Word) (s : State) : Host.Outcome State Fault Refusal :=
  match Reg.ofNumber reg with
  | none => .refused (.reservedRegister reg)
  | some .cmd => runCommand (commandByte w) s
  | some r => .next (s.storeReg r w)

/-- `HostRead(reg)` (R30): the register's value is answered; a reserved number is refused (R22). -/
def hostRead (reg : Nat) (s : State) : Host.Outcome State Fault Refusal :=
  match Reg.ofNumber reg with
  | none => .refused (.reservedRegister reg)
  | some r => .next (s.answer r)

/-- The host supplies a stream (R31, R42). -/
def attachStream (bytes : List Byte) (s : State) : Host.Outcome State Fault Refusal :=
  match streamOf bytes with
  | none => .refused (.streamTooLong bytes.length)
  | some m => .next { s with stream := m }

/-- The host or another agent changes one byte of the stream (R42, R104). -/
def pokeStream (p : Nat) (b : Byte) (s : State) : Host.Outcome State Fault Refusal :=
  match pokeByte s.stream p b with
  | none => .refused (.noSuchPosition p)
  | some m => .next { s with stream := m }

/-- The host reads one byte of the stream by its own means (R28, R80): the CORE is not involved. -/
def fetchStream (p : Nat) (s : State) : Host.Outcome State Fault Refusal :=
  match memRead s.stream p with
  | .error _ => .refused (.noSuchPosition p)
  | .ok b => .next { s with replies := s.replies ++ [b.setWidth 32] }

/-- Serve one host move, to completion (R5, R29, R41). -/
def serve (move : HostMove) (s : State) : Host.Outcome State Fault Refusal :=
  match move with
  | .write reg w => hostWrite reg w s
  | .read reg => hostRead reg s
  | .reset => .next s.resetCore
  | .attach bytes => attachStream bytes s
  | .poke p b => pokeStream p b s
  | .fetch p => fetchStream p s

/-- Take the host's next move off the list; none where the host has made no move. -/
def nextMove (s : State) : Option (HostMove × State) :=
  match s.pending with
  | [] => none
  | move :: rest => some (move, { s with pending := rest })

/-- The host's `HostWrite(CMD, w)` put before its other moves. -/
def queueCommand (s : State) (w : Word) : State :=
  { s with pending := .write 0 w :: s.pending }

end Sys2Proof.Machine
end

