-- ==== Sys2Proof/Machine/Step.lean ====
section
/-! DEFINITION. One step: the host's next move, served to completion (00_scope.md R4, R5). -/

namespace Sys2Proof.Machine

/-- One step of the machine. The CORE does nothing by itself (R24, R88): where the host has made no move, nothing changes. -/
def step (s : State) : Host.Outcome State Fault Refusal :=
  match nextMove s with
  | none => .next s
  | some (move, t) => serve move t

/-- The state whose next step runs the opcode table's word: the CORE fetches nothing (R24), so the word is the data of the
host's next write of `CMD`. -/
def State.withFetchWord (s : State) (nbits w : Nat) : State :=
  queueCommand s (BitVec.ofNat 32 (w % 2 ^ nbits))

end Sys2Proof.Machine
end

