-- ==== Sys2Proof/Machine/Assembler.lean ====
section
/-! DEFINITION. The assembler (30_encoding.md R55, R56): command mnemonics and pseudo-instructions as lists of host moves. -/

namespace Sys2Proof.Machine

/-- One line of a program (R55, R56). -/
inductive AsmLine where
  /-- A command mnemonic, with `.B` for `B = 1`. -/
  | command (i : Instr)
  /-- `WR reg, imm`. -/
  | wr (r : Reg) (imm : Int)
  /-- `RD reg`. -/
  | rd (r : Reg)
  /-- `SLICE b0 b1 ..`. -/
  | slice (bytes : List Byte)
  /-- `SEEK imm`. -/
  | seek (imm : Int)
  /-- `TELL`. -/
  | tell
  deriving DecidableEq, Repr

/-- The writes of `IB[i]` a `SLICE` line makes, from register number `n` on: at most five bytes are held (R56). -/
def sliceWrites : Nat → List Byte → List HostMove
  | _, [] => []
  | n, b :: rest => .write n (b.setWidth 32) :: sliceWrites (n + 1) rest

/-- The host accesses a line stands for (R55, R56); `imm` is reduced modulo 2^32. -/
def asmMoves : AsmLine → List HostMove
  | .command i => [.write 0 ((encode i).setWidth 32)]
  | .wr r imm => [.write r.number (BitVec.ofInt 32 imm)]
  | .rd r => [.read r.number]
  | .slice bytes => .write 3 (BitVec.ofNat 32 bytes.length) :: sliceWrites 4 (bytes.take Config.maxLen)
  | .seek imm => [.write 16 (BitVec.ofInt 32 imm)]
  | .tell => [.read 16]

/-- A program: its lines, executed top to bottom with no branches (R55). -/
def asmProgram : List AsmLine → List HostMove
  | [] => []
  | line :: rest => asmMoves line ++ asmProgram rest

/-- The mnemonics with the commands they stand for (R55). -/
def mnemonics : List (String × Instr) :=
  [("ENCU", .encu false), ("ENCU.B", .encu true), ("DECU", .decu false), ("DECU.B", .decu true), ("ENCS", .encs),
    ("DECS", .decs), ("PEEKU", .peeku), ("PEEKS", .peeks), ("DSTRU", .dstru false), ("DSTRU.B", .dstru true),
    ("DSTRS", .dstrs)]

/-- The command a mnemonic stands for (R55): `.B` on any other mnemonic is an assembly error. -/
def asmCommand (text : String) : Option Instr := mnemonics.lookup text

/-- The register names of R6, each at its register number. -/
def regNames : List String :=
  ["CMD", "STATUS", "VIN", "ILEN", "IB[0]", "IB[1]", "IB[2]", "IB[3]", "IB[4]", "RVAL", "RSIZE", "OB[0]", "OB[1]",
    "OB[2]", "OB[3]", "OB[4]", "POS"]

/-- The register of a name (R6). -/
def asmReg (text : String) : Option Reg := (regNames.idxOf? text).bind Reg.ofNumber

/-- The sixteen digits as the spec prints them (R110: `AC 02`), each at its value. -/
def hexDigits : List Char := "0123456789ABCDEF".toList

/-- The value of a digit: its place among the digits. A lower-case letter is read as the upper-case one: DESIGN CHOICE, log
17, since the spec prints upper case and gives no grammar. -/
def asmDigit (c : Char) : Option Nat := hexDigits.idxOf? c.toUpper

/-- The values of the digits of a number, all below the base; none where a character is no digit of it. -/
def asmDigits (base : Nat) (text : List Char) : Option (List Nat) :=
  text.mapM fun c => (asmDigit c).filter (· < base)

/-- A number in a base, of one digit or more, leading zeros allowed (DESIGN CHOICE, log 17: the spec gives no count of digits). -/
def asmNat (base : Nat) (text : List Char) : Option Nat :=
  if text.isEmpty then none else (asmDigits base text).map (List.foldl (fun value digit => base * value + digit) 0)

/-- `imm` of R56: decimal, `0x` hex, or negative decimal; its digits as log 17 says. -/
def asmNumber : List Char → Option Int
  | '-' :: rest => (asmNat 10 rest).map fun n => -(n : Int)
  | '0' :: 'x' :: rest => (asmNat 16 rest).map fun n => (n : Int)
  | text => (asmNat 10 text).map fun n => (n : Int)

/-- A byte of a `SLICE` line (R56): a hex pair, as R110 writes bytes. That any other count of digits is an assembly error is a
DESIGN CHOICE, log 17. -/
def asmByte : List Char → Option Byte
  | [hi, lo] => (asmNat 16 [hi, lo]).map (BitVec.ofNat 8)
  | _ => none

/-- The hex bytes of a `SLICE` line (R56), each a hex pair (log 17). -/
def asmBytes (words : List (List Char)) : Option (List Byte) := words.mapM asmByte

/-- The words of a line: split at blanks and commas (DESIGN CHOICE, log 17), up to a comment (R55). The first argument is the word being read,
last character first. -/
def asmWords : List Char → List Char → List (List Char)
  | word, [] => if word = [] then [] else [word.reverse]
  | word, c :: rest =>
    if c = '#' then if word = [] then [] else [word.reverse]
    else if c = ' ' ∨ c = ',' then if word = [] then asmWords [] rest else word.reverse :: asmWords [] rest
    else asmWords (c :: word) rest

/-- The line a word list stands for (R55, R56); none is an assembly error. -/
def asmParse : List (List Char) → Option AsmLine
  | [word] => if word = "TELL".toList then some .tell
      else if word = "SLICE".toList then some (.slice [])
      else (asmCommand (String.ofList word)).map .command
  | word :: args =>
    if word = "SLICE".toList then (asmBytes args).map .slice
    else match args with
      | [a] =>
        if word = "RD".toList then (asmReg (String.ofList a)).map .rd
        else if word = "SEEK".toList then (asmNumber a).map .seek
        else none
      | [a, b] =>
        if word = "WR".toList then
          match asmReg (String.ofList a), asmNumber b with
          | some r, some imm => some (.wr r imm)
          | _, _ => none
        else none
      | _ => none
  | [] => none

/-- The host accesses of a line's text (R55, R56): none where it is an assembly error, no access where it is blank or a
comment (DESIGN CHOICE, log 17). -/
def asmText (text : String) : Option (List HostMove) :=
  match asmWords [] text.toList with
  | [] => some []
  | words => (asmParse words).map asmMoves

end Sys2Proof.Machine
end

