-- ==== Sys2Proof/Safety.lean ====
section
/-! DEFINITION. The terms the claims are stated in: what a command keeps, what a failure leaves, the invariant every step keeps,
where a varint stands on the stream, which host moves have a meaning, and the spec's fixed-width form of a value. -/

namespace Sys2Proof.Machine

/-- Byte `i` of the input slice file `IB` (R11). -/
def State.ibAt (s : State) (i : Nat) : Byte := s.ib.toList.getD i 0#8

/-- Byte `i` of the output file `OB` (R14). -/
def State.obAt (s : State) (i : Nat) : Result 8 := s.ob.toList.getD i .unspec

/-- `OB[0..4]` are all UNSPEC (R19). -/
def State.obUnspec (s : State) : Prop := ∀ i < 5, s.obAt i = .unspec

/-- All seven result registers are UNSPEC (R19, R84). -/
def State.resultsUnspec (s : State) : Prop := s.rval = .unspec ∧ s.rsize = .unspec ∧ s.obUnspec

/-- The operand registers are as before (R18). -/
def State.operandsKept (s t : State) : Prop := t.vin = s.vin ∧ t.ilen = s.ilen ∧ t.ib = s.ib

/-- The stream is as before: the same length, and every position reads as before (R34). -/
def State.streamKept (s t : State) : Prop :=
  t.stream.slen = s.stream.slen ∧ ∀ p, memRead t.stream p = memRead s.stream p

/-- The host's own side is as before: its moves still to come and the answers it holds, two fields that are the model's own
(notes/assumptions/2.md). -/
def State.hostKept (s t : State) : Prop := t.pending = s.pending ∧ t.replies = s.replies

/-- Everything a command never writes is as before (R17, R18, R34). `STATUS`, the result registers and `POS` are the rest of the
CORE. -/
def State.kept (s t : State) : Prop := s.operandsKept t ∧ s.streamKept t ∧ s.hostKept t

/-- The effect of a failure (R84): its status, results UNSPEC, everything else, `POS` among it, as before. -/
def State.failedAs (s t : State) (st : Status) : Prop :=
  t.status = st ∧ t.resultsUnspec ∧ t.pos = s.pos ∧ s.kept t

/-- `OB` holds an encoding of `n` bytes in wire form (R61 (b), R67 (b)): the continuation bit set in all but the last, the
registers from `OB[n]` on UNSPEC (R14). -/
def State.obWellFormed (s : State) (n : Nat) : Prop :=
  ∀ i < 5,
    (i + 1 < n → ∃ b, s.obAt i = .known b ∧ contBit b = true) ∧
    (i + 1 = n → ∃ b, s.obAt i = .known b ∧ contBit b = false) ∧
    (n ≤ i → s.obAt i = .unspec)

/-- The invariant every step keeps: the stream is in canonical form; the result registers are UNSPEC unless `STATUS` is
`OK` (R84, R27); after `OK`, `RSIZE` is 1 to 5 (R13), and `OB` is UNSPEC or holds a wire-form encoding of `RSIZE` bytes beside an
UNSPEC `RVAL` (R14, R19). -/
def State.Inv (s : State) : Prop :=
  s.stream.wf = true ∧
  (s.status ≠ .ok → s.resultsUnspec) ∧
  (s.status = .ok → ∃ n, 1 ≤ n ∧ n ≤ 5 ∧ s.rsize = .known (BitVec.ofNat 3 n) ∧
    (s.obUnspec ∨ s.rval = .unspec ∧ s.obWellFormed n))

/-- The `c` bytes from position `p` of the stream exist and are `t 0 .. t (c-1)`. -/
def bytesAt (m : Memory) (p c : Nat) (t : Nat → Byte) : Prop := ∀ i < c, memRead m (p + i) = .ok (t i)

/-- The first `c - 1` bytes have the continuation bit set. -/
def continued (t : Nat → Byte) (c : Nat) : Prop := ∀ i, i + 1 < c → contBit (t i) = true

/-- A varint of `c` bytes stands at position `p`: its only terminator is its last byte (R46, R47). -/
def varintAt (m : Memory) (p c : Nat) (t : Nat → Byte) : Prop :=
  1 ≤ c ∧ c ≤ 5 ∧ bytesAt m p c t ∧ continued t c ∧ contBit (t (c - 1)) = false

/-- Five bytes without a terminator stand at position `p` (R73). -/
def unterminatedAt (m : Memory) (p : Nat) (t : Nat → Byte) : Prop :=
  bytesAt m p 5 t ∧ ∀ i < 5, contBit (t i) = true

/-- The stream ends at `p + c`, before a terminator and before five bytes (R72, R82). -/
def endsInside (m : Memory) (p c : Nat) (t : Nat → Byte) : Prop :=
  c < 5 ∧ bytesAt m p c t ∧ (∀ i < c, contBit (t i) = true) ∧ m.slen.val ≤ p + c

/-- Group `i` of a sequence of which `k` bytes are consumed: 7 bits, 0 from `k` on (R64 (d)). -/
def groupWord (t : Nat → Byte) (k i : Nat) : Word := if i < k then (t i &&& 0x7F#8).setWidth 32 else 0#32

/-- The fixed-width form of an accumulated value (R64 (d), R69): bits 34:32 of the fifth group are dropped. -/
def wireWord (t : Nat → Byte) (k : Nat) : Word :=
  groupWord t k 0 ||| groupWord t k 1 <<< 7 ||| groupWord t k 2 <<< 14 ||| groupWord t k 3 <<< 21 |||
    (groupWord t k 4 &&& 0x0F#32) <<< 28

/-- The ones a negative signed value of `k` groups has above its last group, in 32 bits: `2^32 - 2^(7k)` for `k <= 4`, nothing
for five groups (R69). -/
def signFill (last : Byte) (k : Nat) : Word :=
  if signBit last = true ∧ k ≤ 4 then BitVec.ofNat 32 (2 ^ 32 - 2 ^ (7 * k)) else 0#32

/-- The host moves that have a meaning: accesses to register numbers 0 to 16 (R22), a reset (R97), and the model's own moves
(notes/assumptions/5.md, 16.md) where they are of a stream of at most `2^32 - 1` bytes or a position below `SLEN` (R31). -/
def HostMove.meaningful (m : Memory) : HostMove → Prop
  | .write reg _ => reg ≤ 16
  | .read reg => reg ≤ 16
  | .reset => True
  | .attach bytes => bytes.length < 2 ^ 32
  | .poke p _ => p < m.slen.val
  | .fetch p => p < m.slen.val

/-- A safe step: the machine goes on. The CORE never stops by itself (R81, notes/assumptions/8.md). -/
def safeStep (s : State) : Prop := ∃ t, step s = .next t

end Sys2Proof.Machine
end

