-- ==== Sys2Proof/Certificates/Slice0/Obligations.lean ====
section
/-! DEFINITION. The statements for the provers, each from the numbered rules of spec/ it names. -/

open Sys2Proof Sys2Proof.Machine

/-! ### Command words -/

/-- R49: the opcode map, whole: these eleven words and no others are commands. -/
def Obligations.ElevenWordsAreTheCommands : Prop :=
  ∀ (w : Byte) (i : Instr), decode w = .ok i ↔
    (w, i) ∈ [(0x00#8, Instr.encu false), (0x08#8, .encu true), (0x01#8, .decu false), (0x09#8, .decu true), (0x02#8, .encs),
      (0x03#8, .decs), (0x04#8, .peeku), (0x05#8, .peeks), (0x06#8, .dstru false), (0x0E#8, .dstru true), (0x07#8, .dstrs)]

/-- Decode and encode agree on every 32-bit host word: it decodes to `i` exactly when its low byte is `i`'s word, so no bit
of the command byte is dropped and bits 31:8 never matter (R21, R48, R49). -/
def Obligations.HostWordDecodesToItsCommand : Prop :=
  ∀ (w : Word) (i : Instr), decode (commandByte w) = .ok i ↔ w.toNat % 2 ^ 8 = (encode i).toNat

/-- A step runs the decoded command: the host's next move is a write of `CMD` whose low byte decodes to `i`, and the step is
`exec i` of the state with that move taken off (R58, R29; the list of moves is the model's, log 2). That where the host has made
no move a step changes nothing is the model's choice, notes/assumptions/6.md: DEDUCED from R24 and R88, not a rule of theirs. -/
def Obligations.StepRunsTheDecodedCommand : Prop :=
  (∀ (s : State) (w : Word) (rest : List HostMove) (i : Instr), s.pending = .write 0 w :: rest →
    decode (commandByte w) = .ok i → step s = exec i { s with pending := rest }) ∧
  (∀ s : State, s.pending = [] → step s = .next s)

/-- R52: the two conditions that make a word illegal, and what executing one does: `IllegalCommand`, the result registers
UNSPEC, everything else as before. -/
def Obligations.IllegalWordCompletesIllegalCommand : Prop :=
  ∀ w : Byte,
    ((∃ e, decode w = .error e) ↔
      w.extractLsb' 4 4 ≠ 0#4 ∨ (w.getLsbD 3 = true ∧ w.toNat % 8 ∈ [2, 3, 4, 5, 7])) ∧
    ((∃ e, decode w = .error e) → ∀ s : State, ∃ t, runCommand w s = .next t ∧ s.failedAs t .illegalCommand)

/-- The mnemonics of R55 with their words; `.B` on another mnemonic is an assembly error. -/
def Obligations.MnemonicsGiveTheirWords : Prop :=
  (asmCommand "ENCU").map encode = some 0x00#8 ∧ (asmCommand "ENCU.B").map encode = some 0x08#8 ∧
  (asmCommand "DECU").map encode = some 0x01#8 ∧ (asmCommand "DECU.B").map encode = some 0x09#8 ∧
  (asmCommand "ENCS").map encode = some 0x02#8 ∧ (asmCommand "DECS").map encode = some 0x03#8 ∧
  (asmCommand "PEEKU").map encode = some 0x04#8 ∧ (asmCommand "PEEKS").map encode = some 0x05#8 ∧
  (asmCommand "DSTRU").map encode = some 0x06#8 ∧ (asmCommand "DSTRU.B").map encode = some 0x0E#8 ∧
  (asmCommand "DSTRS").map encode = some 0x07#8 ∧
  ∀ t ∈ ["ENCS.B", "DECS.B", "PEEKU.B", "PEEKS.B", "DSTRS.B"], asmCommand t = none

/-! ### Unsigned codec -/

/-- R60: ENCU completes for every `VIN` and `B`. With `w = (VIN + B) mod 2^32` and `n = usize(w)`: `RSIZE = n`, `OB[i]` the
group `w[7i+6 : 7i]` with the continuation bit, the last byte `w[7n-1 : 7n-7]` without. -/
def Obligations.EncuProducesTheGroups : Prop :=
  decode 0x00#8 = .ok (.encu false) ∧ decode 0x08#8 = .ok (.encu true) ∧
  ∀ (b : Bool) (s : State), ∃ t, exec (.encu b) s = .next t ∧
    let w : Word := s.vin + if b then 1#32 else 0#32
    let n := usize w
    t.status = .ok ∧ t.rval = .unspec ∧ t.rsize = .known (BitVec.ofNat 3 n) ∧
    (∀ i, i + 1 < n → t.obAt i = .known (0x80#8 ||| (w.extractLsb' (7 * i) 7).setWidth 8)) ∧
    t.obAt (n - 1) = .known ((w.extractLsb' (7 * n - 7) 7).setWidth 8) ∧
    (∀ i < 5, n ≤ i → t.obAt i = .unspec) ∧
    t.pos = s.pos ∧ s.kept t

/-- R61 (b), (c): ENCU's bytes are in wire form, and the last one of several is not `00`. -/
def Obligations.EncuIsWellFormedAndMinimal : Prop :=
  ∀ (b : Bool) (s : State), ∃ t n, exec (.encu b) s = .next t ∧ 1 ≤ n ∧ n ≤ 5 ∧
    t.rsize = .known (BitVec.ofNat 3 n) ∧ t.obWellFormed n ∧ (1 < n → t.obAt (n - 1) ≠ .known 0#8)

/-- R63: DECU. Where `ILEN` is 1 to 5 and the first terminator among the slice's bytes is byte `k-1`, it completes `OK` with the
value of the first `k` groups modulo 2^32, less the bias, wrapping, and `RSIZE = ILEN`. Where `ILEN` is 0 or above 5, or no byte
of the slice is a terminator, it fails `InvalidVarint`. -/
def Obligations.DecuDecodesOrRejects : Prop :=
  decode 0x01#8 = .ok (.decu false) ∧ decode 0x09#8 = .ok (.decu true) ∧
  (∀ (b : Bool) (s : State) (k : Nat), s.ilen.toNat ≤ 5 → 1 ≤ k → k ≤ s.ilen.toNat → continued s.ibAt k →
    contBit (s.ibAt (k - 1)) = false →
    ∃ t, exec (.decu b) s = .next t ∧ t.status = .ok ∧
      t.rval = .known (wireWord s.ibAt k - if b then 1#32 else 0#32) ∧
      t.rsize = .known (BitVec.ofNat 3 s.ilen.toNat) ∧ t.obUnspec ∧ t.pos = s.pos ∧ s.kept t) ∧
  (∀ (b : Bool) (s : State),
    (s.ilen.toNat = 0 ∨ 5 < s.ilen.toNat ∨ ∀ i < s.ilen.toNat, contBit (s.ibAt i) = true) →
    ∃ t, exec (.decu b) s = .next t ∧ s.failedAs t .invalidVarint)

/-- R64 (a), R61 (e): feeding ENCU's bytes to DECU with the same `B` returns the value and the size, for every value. -/
def Obligations.UnsignedRoundTrip : Prop :=
  ∀ (b : Bool) (s : State), ∃ t n, exec (.encu b) s = .next t ∧ t.rsize = .known n ∧
    ∀ u : State, u.ilen = n.setWidth 32 → (∀ i < n.toNat, t.obAt i = .known (u.ibAt i)) →
      ∃ r, exec (.decu b) u = .next r ∧ r.status = .ok ∧ r.rval = .known s.vin ∧ r.rsize = .known n

/-- Q4, R57: ENCU's encoding is the shortest: no slice that DECU decodes to the value is shorter. -/
def Obligations.EncuEncodingIsShortest : Prop :=
  ∀ (b : Bool) (s u r : State), exec (.decu b) u = .next r → r.status = .ok → r.rval = .known s.vin →
    ∃ t n, exec (.encu b) s = .next t ∧ t.rsize = .known n ∧ n.toNat ≤ u.ilen.toNat

/-! ### Signed codec -/

/-- R66: ENCS completes for every `VIN`. With `s = sint32(VIN)`, `n = ssize(s)` and `x` its 35-bit pattern: `RSIZE = n`, `OB[i]`
the group `x[7i+6 : 7i]` with the continuation bit, the last byte `x[7n-1 : 7n-7]` without. -/
def Obligations.EncsProducesTheGroups : Prop :=
  decode 0x02#8 = .ok .encs ∧
  ∀ s : State, ∃ t, exec .encs s = .next t ∧
    let x : BitVec 35 := s.vin.signExtend 35
    let n := ssize s.vin.toInt
    t.status = .ok ∧ t.rval = .unspec ∧ t.rsize = .known (BitVec.ofNat 3 n) ∧
    (∀ i, i + 1 < n → t.obAt i = .known (0x80#8 ||| (x.extractLsb' (7 * i) 7).setWidth 8)) ∧
    t.obAt (n - 1) = .known ((x.extractLsb' (7 * n - 7) 7).setWidth 8) ∧
    (∀ i < 5, n ≤ i → t.obAt i = .unspec) ∧
    t.pos = s.pos ∧ s.kept t

/-- R67 (b), (c), (d): ENCS's bytes are in wire form, bit 6 of the last is the sign, and the last of several is not the mere
sign extension of the one before it. -/
def Obligations.EncsIsWellFormedAndMinimal : Prop :=
  ∀ s : State, ∃ t n last, exec .encs s = .next t ∧ 1 ≤ n ∧ n ≤ 5 ∧
    t.rsize = .known (BitVec.ofNat 3 n) ∧ t.obWellFormed n ∧ t.obAt (n - 1) = .known last ∧
    (signBit last = true ↔ s.vin.toInt < 0) ∧
    (1 < n → ∃ before, t.obAt (n - 2) = .known before ∧
      ¬ (last = 0x00#8 ∧ signBit before = false) ∧ ¬ (last = 0x7F#8 ∧ signBit before = true))

/-- R68: sign extension. Where bit 6 of the last byte is set, bits `7k` and above are 1 and the bits below are the
accumulator's; where it is clear, nothing changes. -/
def Obligations.SignExtensionFillsFromBitSevenK : Prop :=
  ∀ (acc k : Nat) (last : Byte),
    (signBit last = true → ∀ j, (signExtend acc k last).testBit j = (decide (7 * k ≤ j) || acc.testBit j)) ∧
    (signBit last = false → signExtend acc k last = acc)

/-- R69: DECS. Where `ILEN` is 1 to 5 and the scan ends at byte `k-1` (the first terminator, or the slice's last byte where
there is none), it completes `OK` with the first `k` groups, sign-extended from bit 6 of that byte, in 32 bits, and `RSIZE = ILEN`;
there is no terminator check. Where `ILEN` is 0 or above 5 it fails `InvalidVarint`. -/
def Obligations.DecsDecodesOrRejects : Prop :=
  decode 0x03#8 = .ok .decs ∧
  (∀ (s : State) (k : Nat), s.ilen.toNat ≤ 5 → 1 ≤ k → k ≤ s.ilen.toNat → continued s.ibAt k →
    (contBit (s.ibAt (k - 1)) = false ∨ k = s.ilen.toNat) →
    ∃ t, exec .decs s = .next t ∧ t.status = .ok ∧
      t.rval = .known (wireWord s.ibAt k ||| signFill (s.ibAt (k - 1)) k) ∧
      t.rsize = .known (BitVec.ofNat 3 s.ilen.toNat) ∧ t.obUnspec ∧ t.pos = s.pos ∧ s.kept t) ∧
  (∀ s : State, (s.ilen.toNat = 0 ∨ 5 < s.ilen.toNat) →
    ∃ t, exec .decs s = .next t ∧ s.failedAs t .invalidVarint)

/-- R70 (c), with R69's "no terminator check": every slice of 1 to 5 bytes is accepted by DECS, and no other. -/
def Obligations.DecsAcceptsEverySliceOfOneToFive : Prop :=
  ∀ s : State, ∃ t, exec .decs s = .next t ∧ (t.status = .ok ↔ 1 ≤ s.ilen.toNat ∧ s.ilen.toNat ≤ 5)

/-- R70 (a), R67 (e): feeding ENCS's bytes to DECS returns the value and the size, for every value. -/
def Obligations.SignedRoundTrip : Prop :=
  ∀ s : State, ∃ t n, exec .encs s = .next t ∧ t.rsize = .known n ∧
    ∀ u : State, u.ilen = n.setWidth 32 → (∀ i < n.toNat, t.obAt i = .known (u.ibAt i)) →
      ∃ r, exec .decs u = .next r ∧ r.status = .ok ∧ r.rval = .known s.vin ∧ r.rsize = .known n

/-- Q4, R57: ENCS's encoding is the shortest: no slice that DECS decodes to the value is shorter. -/
def Obligations.EncsEncodingIsShortest : Prop :=
  ∀ s u r : State, exec .decs u = .next r → r.status = .ok → r.rval = .known s.vin →
    ∃ t n, exec .encs s = .next t ∧ t.rsize = .known n ∧ n.toNat ≤ u.ilen.toNat

/-! ### The stream -/

/-- R33: `MemRead(p, 1)` answers the byte `S[p]` below `SLEN` and raises `StreamEnd` from there on: on the stream a host supplies as
`bytes`, which has `SLEN` the number of bytes and `S` the bytes (R31). That the host supplies it by an `attach` move is the model's
choice (notes/assumptions/5.md), and the clause `m.wf = true`, the canonical form, is of the model's representation of a stream
(notes/assumptions/3.md). -/
def Obligations.AttachedStreamReadsAsItsBytes : Prop :=
  ∀ (s : State) (bytes : List Byte) (rest : List HostMove), s.pending = .attach bytes :: rest → bytes.length < 2 ^ 32 →
    ∃ m, step s = .next { s with pending := rest, stream := m } ∧ m.slen.val = bytes.length ∧ m.wf = true ∧
      ∀ p, memRead m p = match bytes[p]? with
        | some b => .ok b
        | none => .error .streamEnd

/-- R42: a change of one byte between commands is seen in full and changes nothing else: the other positions, `SLEN` and every
register are as before. That the change comes as a `poke` move is the model's choice (notes/assumptions/5.md), and the premise
`wf`, the canonical form, is of the model's representation (notes/assumptions/3.md). -/
def Obligations.PokeChangesOneByte : Prop :=
  ∀ (s : State) (p : Nat) (b : Byte) (rest : List HostMove), s.stream.wf = true → s.pending = .poke p b :: rest →
    p < s.stream.slen.val →
    ∃ m, step s = .next { s with pending := rest, stream := m } ∧ m.slen = s.stream.slen ∧
      memRead m p = .ok b ∧ ∀ q, q ≠ p → memRead m q = memRead s.stream q

/-- R28, R80: a read of the stream by the host's own means answers the byte and touches nothing else. That it is a `fetch` move
answered into `replies` is the model's choice (notes/assumptions/16.md and 2.md). -/
def Obligations.FetchAnswersTheByte : Prop :=
  ∀ (s : State) (p : Nat) (rest : List HostMove), s.pending = .fetch p :: rest → p < s.stream.slen.val →
    ∃ x t, memRead s.stream p = .ok x ∧ step s = .next t ∧ t.replies = s.replies ++ [x.setWidth 32] ∧ t.pending = rest ∧
      t.status = s.status ∧ s.operandsKept t ∧ t.rval = s.rval ∧ t.rsize = s.rsize ∧ t.ob = s.ob ∧ t.pos = s.pos ∧
      s.streamKept t

/-- R73: PEEKU. A varint of `c` bytes at `POS`: `OK`, `RSIZE = c`, `POS` unchanged. Five bytes without a terminator:
`InvalidVarint`. The stream ends before a terminator and before five bytes: `StreamEnd`. -/
def Obligations.PeekuMeasuresOrFails : Prop :=
  decode 0x04#8 = .ok .peeku ∧
  (∀ (s : State) (c : Nat) (t : Nat → Byte), varintAt s.stream s.pos.toNat c t →
    ∃ u, exec .peeku s = .next u ∧ u.status = .ok ∧ u.rsize = .known (BitVec.ofNat 3 c) ∧ u.rval = .unspec ∧ u.obUnspec ∧
      u.pos = s.pos ∧ s.kept u) ∧
  (∀ (s : State) (t : Nat → Byte), unterminatedAt s.stream s.pos.toNat t →
    ∃ u, exec .peeku s = .next u ∧ s.failedAs u .invalidVarint) ∧
  (∀ (s : State) (c : Nat) (t : Nat → Byte), endsInside s.stream s.pos.toNat c t →
    ∃ u, exec .peeku s = .next u ∧ s.failedAs u .streamEnd)

/-- R74: PEEKS. As PEEKU, but five bytes without a terminator complete `OK` with `RSIZE = 5`. -/
def Obligations.PeeksMeasuresOrFails : Prop :=
  decode 0x05#8 = .ok .peeks ∧
  (∀ (s : State) (c : Nat) (t : Nat → Byte),
    varintAt s.stream s.pos.toNat c t ∨ (c = 5 ∧ unterminatedAt s.stream s.pos.toNat t) →
    ∃ u, exec .peeks s = .next u ∧ u.status = .ok ∧ u.rsize = .known (BitVec.ofNat 3 c) ∧ u.rval = .unspec ∧ u.obUnspec ∧
      u.pos = s.pos ∧ s.kept u) ∧
  (∀ (s : State) (c : Nat) (t : Nat → Byte), endsInside s.stream s.pos.toNat c t →
    ∃ u, exec .peeks s = .next u ∧ s.failedAs u .streamEnd)

/-- R76: DSTRU. A varint of `c` bytes at `POS`: `OK`, its value modulo 2^32 less the bias, `RSIZE = c`, `POS` past it. Five bytes
without a terminator: `InvalidVarint`. The stream ends inside: `StreamEnd`. On either failure `POS` keeps its value. -/
def Obligations.DstruDecodesOrFails : Prop :=
  decode 0x06#8 = .ok (.dstru false) ∧ decode 0x0E#8 = .ok (.dstru true) ∧
  (∀ (b : Bool) (s : State) (c : Nat) (t : Nat → Byte), varintAt s.stream s.pos.toNat c t →
    ∃ u, exec (.dstru b) s = .next u ∧ u.status = .ok ∧
      u.rval = .known (wireWord t c - if b then 1#32 else 0#32) ∧ u.rsize = .known (BitVec.ofNat 3 c) ∧ u.obUnspec ∧
      u.pos.toNat = s.pos.toNat + c ∧ s.kept u) ∧
  (∀ (b : Bool) (s : State) (t : Nat → Byte), unterminatedAt s.stream s.pos.toNat t →
    ∃ u, exec (.dstru b) s = .next u ∧ s.failedAs u .invalidVarint) ∧
  (∀ (b : Bool) (s : State) (c : Nat) (t : Nat → Byte), endsInside s.stream s.pos.toNat c t →
    ∃ u, exec (.dstru b) s = .next u ∧ s.failedAs u .streamEnd)

/-- R77: DSTRS. A varint of `c` bytes at `POS`, or five bytes without a terminator: `OK`, the groups sign-extended from bit 6 of the
last byte, `RSIZE = c`, `POS` past them. The stream ends inside: `StreamEnd`, and `POS` keeps its value. -/
def Obligations.DstrsDecodesOrFails : Prop :=
  decode 0x07#8 = .ok .dstrs ∧
  (∀ (s : State) (c : Nat) (t : Nat → Byte),
    varintAt s.stream s.pos.toNat c t ∨ (c = 5 ∧ unterminatedAt s.stream s.pos.toNat t) →
    ∃ u, exec .dstrs s = .next u ∧ u.status = .ok ∧
      u.rval = .known (wireWord t c ||| signFill (t (c - 1)) c) ∧ u.rsize = .known (BitVec.ofNat 3 c) ∧ u.obUnspec ∧
      u.pos.toNat = s.pos.toNat + c ∧ s.kept u) ∧
  (∀ (s : State) (c : Nat) (t : Nat → Byte), endsInside s.stream s.pos.toNat c t →
    ∃ u, exec .dstrs s = .next u ∧ s.failedAs u .streamEnd)

/-- R72, R89: what stands at a position is exactly one of three things: a varint of one length, five bytes without a
terminator, or a stream that ends inside. And the probe answers accordingly: the count and last byte of the varint or of the five
bytes exactly where one of them stands there, `StreamEnd` exactly where the stream ends inside, and no other failure. -/
def Obligations.ProbeOutcomesAreExclusive : Prop :=
  ∀ (m : Memory) (p : Nat),
    ((∃ c t, varintAt m p c t) ∨ (∃ t, unterminatedAt m p t) ∨ ∃ c t, endsInside m p c t) ∧
    (∀ c t, varintAt m p c t → (¬ ∃ t', unterminatedAt m p t') ∧ (¬ ∃ c' t', endsInside m p c' t') ∧
      ∀ c' t', varintAt m p c' t' → c' = c) ∧
    (∀ t, unterminatedAt m p t → ¬ ∃ c' t', endsInside m p c' t') ∧
    (∀ c last, probe m p = .ok (c, last) ↔
      (∃ t, varintAt m p c t ∧ last = t (c - 1)) ∨ (c = 5 ∧ ∃ t, unterminatedAt m p t ∧ last = t 4)) ∧
    (∀ f, probe m p = .error f ↔ f = .streamEnd ∧ ∃ c t, endsInside m p c t)

/-- R78: the probe agrees with the stream decode, unsigned and signed: on one stream and position both complete alike, with the
same `RSIZE`; the peek leaves `POS`, the decode advances it by exactly `RSIZE` where it completes `OK` and else leaves it. -/
def Obligations.PeekAgreesWithStreamDecode : Prop :=
  ∀ (s : State) (peek decode : Instr),
    ((peek = .peeku ∧ ∃ b, decode = .dstru b) ∨ (peek = .peeks ∧ decode = .dstrs)) →
    ∃ u r, exec peek s = .next u ∧ exec decode s = .next r ∧ u.pos = s.pos ∧ r.status = u.status ∧ r.rsize = u.rsize ∧
      (u.status = .ok → ∃ n, u.rsize = .known n ∧ r.pos.toNat = s.pos.toNat + n.toNat) ∧
      (u.status ≠ .ok → r.pos = s.pos)

/-- R80: the two-command form. Where a peek found the size `n`, loading the `n` stream bytes at `POS` into `IB` and decoding from
registers gives the value and size of the single stream command. -/
def Obligations.RegisterDecodeEqualsStreamDecode : Prop :=
  ∀ (s u v : State) (n : BitVec 3) (peek : Instr), exec peek s = .next u → u.status = .ok → u.rsize = .known n →
    v.ilen = n.setWidth 32 → (∀ i < n.toNat, memRead s.stream (s.pos.toNat + i) = .ok (v.ibAt i)) →
    (peek = .peeku → ∀ b, ∃ r q, exec (.dstru b) s = .next r ∧ exec (.decu b) v = .next q ∧
      q.status = .ok ∧ r.status = .ok ∧ q.rval = r.rval ∧ q.rsize = r.rsize) ∧
    (peek = .peeks → ∃ r q, exec .dstrs s = .next r ∧ exec .decs v = .next q ∧
      q.status = .ok ∧ r.status = .ok ∧ q.rval = r.rval ∧ q.rsize = r.rsize)

/-- Q1, Q6: bytes an encoder produced, standing at `POS` of a stream, decode to the value, and `POS` ends right after them:
unsigned with either bias. -/
def Obligations.UnsignedStreamRoundTrip : Prop :=
  ∀ (b : Bool) (s u : State), ∃ t n, exec (.encu b) s = .next t ∧ t.rsize = .known n ∧
    ((∀ i < n.toNat, ∃ x, t.obAt i = .known x ∧ memRead u.stream (u.pos.toNat + i) = .ok x) →
      ∃ r, exec (.dstru b) u = .next r ∧ r.status = .ok ∧ r.rval = .known s.vin ∧ r.rsize = .known n ∧
        r.pos.toNat = u.pos.toNat + n.toNat)

/-- Q3, Q6: the same for the signed pair. -/
def Obligations.SignedStreamRoundTrip : Prop :=
  ∀ s u : State, ∃ t n, exec .encs s = .next t ∧ t.rsize = .known n ∧
    ((∀ i < n.toNat, ∃ x, t.obAt i = .known x ∧ memRead u.stream (u.pos.toNat + i) = .ok x) →
      ∃ r, exec .dstrs u = .next r ∧ r.status = .ok ∧ r.rval = .known s.vin ∧ r.rsize = .known n ∧
        r.pos.toNat = u.pos.toNat + n.toNat)

/-- R39: positions do not wrap. After a stream decode that completes `OK` the new `POS` is the old one plus `RSIZE`, as natural
numbers, and is at most `SLEN`. A `POS` from which a read reaches `SLEN` fails `StreamEnd`, however high it is. -/
def Obligations.PositionsDoNotWrap : Prop :=
  (∀ (s t : State) (i : Instr), (i = .dstrs ∨ ∃ b, i = .dstru b) → exec i s = .next t → t.status = .ok →
    ∃ n, t.rsize = .known n ∧ t.pos.toNat = s.pos.toNat + n.toNat ∧ t.pos.toNat ≤ s.stream.slen.val) ∧
  (∀ (s : State) (i : Instr), (i = .peeku ∨ i = .peeks ∨ i = .dstrs ∨ ∃ b, i = .dstru b) →
    s.stream.slen.val ≤ s.pos.toNat → ∃ t, exec i s = .next t ∧ s.failedAs t .streamEnd)

/-- R79 with R97: what changes `POS` in a step: a host write of register 16, a reset, or a DSTRU or DSTRS that completes `OK`,
which adds `RSIZE`. Nothing else. -/
def Obligations.PosChangesOnlyBySeekResetOrStreamDecode : Prop :=
  ∀ s t : State, step s = .next t → t.pos ≠ s.pos →
    (∃ w rest, s.pending = .write 16 w :: rest ∧ t.pos = w) ∨
    (∃ rest, s.pending = .reset :: rest ∧ t.pos = 0#32) ∨
    (∃ w rest i n, s.pending = .write 0 w :: rest ∧ decode (commandByte w) = .ok i ∧ (i = .dstrs ∨ ∃ b, i = .dstru b) ∧
      t.status = .ok ∧ t.rsize = .known n ∧ t.pos.toNat = s.pos.toNat + n.toNat)

/-- R32: a stream command depends on no stream byte after the first terminator, and on none beyond five. Two states with the same
`POS` whose streams agree on every position the scan reaches complete alike. -/
def Obligations.StreamCommandsReadNoFurtherThanTheVarint : Prop :=
  ∀ (s u t v : State) (i : Instr), (i = .peeku ∨ i = .peeks ∨ i = .dstrs ∨ ∃ b, i = .dstru b) → u.pos = s.pos →
    (∀ j < 5, (∀ k < j, ∃ x, memRead s.stream (s.pos.toNat + k) = .ok x ∧ contBit x = true) →
      memRead u.stream (s.pos.toNat + j) = memRead s.stream (s.pos.toNat + j)) →
    exec i s = .next t → exec i u = .next v →
    v.status = t.status ∧ v.rval = t.rval ∧ v.rsize = t.rsize ∧ v.ob = t.ob ∧ v.pos = t.pos

/-! ### The whole machine -/

/-- R18, with R34: no command word, legal or not, writes an operand register or the stream, whatever its completion. The host's moves
and answers, fields of the model's own (notes/assumptions/2.md), are not its either. -/
def Obligations.CommandsKeepOperandsAndStream : Prop :=
  ∀ (w : Byte) (s t : State), runCommand w s = .next t → s.kept t

/-- R17: the frame of `POS`: only DSTRU and DSTRS move it, and only where they complete `OK`. -/
def Obligations.CommandsKeepPosUnlessStreamDecode : Prop :=
  ∀ (i : Instr) (s t : State), exec i s = .next t → (t.status ≠ .ok ∨ (i ≠ .dstrs ∧ ∀ b, i ≠ .dstru b)) → t.pos = s.pos

/-- R81: every word written to `CMD` completes, in exactly one of four ways, and the code in `STATUS` is 1, 2, 3 or 4. -/
def Obligations.EveryCommandCompletesInOneOfFourWays : Prop :=
  ∀ (w : Byte) (s : State), ∃ t, runCommand w s = .next t ∧
    (t.status = .ok ∧ t.status.code = 1#3 ∨ t.status = .invalidVarint ∧ t.status.code = 2#3 ∨
      t.status = .streamEnd ∧ t.status.code = 3#3 ∨ t.status = .illegalCommand ∧ t.status.code = 4#3)

/-- R84: a completion other than `OK` leaves the result registers UNSPEC and everything else as it was. -/
def Obligations.FailureLeavesEverythingElse : Prop :=
  ∀ (w : Byte) (s t : State), runCommand w s = .next t → t.status ≠ .ok → s.failedAs t t.status

/-- R19: which result registers are UNSPEC after each command. -/
def Obligations.UndefinedResultsBecomeUnspec : Prop :=
  ∀ (i : Instr) (s t : State), exec i s = .next t →
    (t.status ≠ .ok → t.resultsUnspec) ∧
    (t.status = .ok → (i = .encs ∨ ∃ b, i = .encu b) →
      t.rval = .unspec ∧ ∃ n, t.rsize = .known n ∧ (∀ j < n.toNat, ∃ x, t.obAt j = .known x) ∧
        ∀ j < 5, n.toNat ≤ j → t.obAt j = .unspec) ∧
    (t.status = .ok → (i = .decs ∨ i = .dstrs ∨ (∃ b, i = .decu b) ∨ ∃ b, i = .dstru b) →
      t.obUnspec ∧ (∃ v, t.rval = .known v) ∧ ∃ n, t.rsize = .known n) ∧
    (t.status = .ok → (i = .peeku ∨ i = .peeks) → t.rval = .unspec ∧ t.obUnspec ∧ ∃ n, t.rsize = .known n)

/-- R93: after a legal ENCU, ENCU.B or ENCS word, `STATUS` is `OK`, for every `VIN`. -/
def Obligations.EncodersNeverFail : Prop :=
  ∀ (s : State) (w : Word) (rest : List HostMove), s.pending = .write 0 w :: rest →
    (w.toNat % 2 ^ 8 = 0x00 ∨ w.toNat % 2 ^ 8 = 0x08 ∨ w.toNat % 2 ^ 8 = 0x02) →
    ∃ t, step s = .next t ∧ t.status = .ok

/-- R82: the cause table. A command reports `InvalidVarint` or `StreamEnd` exactly for the conditions of the table, and a word
written to `CMD` reports `IllegalCommand` exactly where a bit of 7:4 is set, or `B = 1` with `OPC` 2, 3, 4, 5 or 7. A failure records its code in `STATUS` and nothing else. -/
def Obligations.FailuresHaveExactlyTheirCauses : Prop :=
  (∀ (i : Instr) (s t : State), exec i s = .next t →
    (t.status = .invalidVarint ↔
      (((i = .decs ∨ ∃ b, i = .decu b) ∧ (s.ilen.toNat = 0 ∨ 5 < s.ilen.toNat)) ∨
       ((∃ b, i = .decu b) ∧ 1 ≤ s.ilen.toNat ∧ s.ilen.toNat ≤ 5 ∧ ∀ j < s.ilen.toNat, contBit (s.ibAt j) = true) ∨
       ((i = .peeku ∨ ∃ b, i = .dstru b) ∧ ∃ x, unterminatedAt s.stream s.pos.toNat x))) ∧
    (t.status = .streamEnd ↔
      ((i = .peeku ∨ i = .peeks ∨ i = .dstrs ∨ ∃ b, i = .dstru b) ∧ ∃ c x, endsInside s.stream s.pos.toNat c x))) ∧
  (∀ (w : Byte) (s t : State), runCommand w s = .next t →
    (t.status = .illegalCommand ↔
      w.extractLsb' 4 4 ≠ 0#4 ∨ (w.getLsbD 3 = true ∧ w.toNat % 8 ∈ [2, 3, 4, 5, 7])) ∧
    (t.status ≠ .ok → s.failedAs t t.status)) ∧
  Status.invalidVarint.code = 2#3 ∧ Status.streamEnd.code = 3#3 ∧ Status.illegalCommand.code = 4#3

/-- R4, R90, R102: a command is a function of its operands, `POS` and the stream. Neither `STATUS`, nor a result register, nor an
earlier failure, influences what it computes. -/
def Obligations.CommandsDependOnOperandsOnly : Prop :=
  ∀ (w : Byte) (s u t v : State), u.vin = s.vin → u.ilen = s.ilen → u.ib = s.ib → u.pos = s.pos → u.stream = s.stream →
    runCommand w s = .next t → runCommand w u = .next v →
    v.status = t.status ∧ v.rval = t.rval ∧ v.rsize = t.rsize ∧ v.ob = t.ob ∧ v.pos = t.pos

/-- R11: the registers `IB[ILEN] .. IB[4]` are not part of the slice: their content cannot influence a decode's result; and no
byte is looked at where `ILEN` is 0 or above 5. -/
def Obligations.BytesOutsideTheSliceDoNotMatter : Prop :=
  ∀ (i : Instr) (s u t v : State), (i = .decs ∨ ∃ b, i = .decu b) → u.ilen = s.ilen →
    (s.ilen.toNat ≤ 5 → ∀ j < s.ilen.toNat, u.ibAt j = s.ibAt j) →
    exec i s = .next t → exec i u = .next v → v.status = t.status ∧ v.rval = t.rval ∧ v.rsize = t.rsize

/-- R29: every write by the host: `CMD` runs the command of the low 8 bits, `VIN`, `ILEN`, `IB[i]` and `POS` take the word's low bits
and nothing else changes, a read-only register ignores it, and numbers from 17 on are refused. That writes come as a list of moves is the model's choice
(notes/assumptions/2.md). -/
def Obligations.HostWriteDoesWhatItsRegisterSays : Prop :=
  ∀ (s : State) (reg : Nat) (w : Word) (rest : List HostMove), s.pending = .write reg w :: rest →
    let s0 : State := { s with pending := rest }
    (reg = 0 → step s = runCommand (w.setWidth 8) s0) ∧
    (reg = 2 → step s = .next { s0 with vin := w }) ∧
    (reg = 3 → step s = .next { s0 with ilen := w }) ∧
    (∀ i : Fin 5, reg = 4 + i.val → step s = .next { s0 with ib := s.ib.set i (w.setWidth 8) }) ∧
    (reg = 16 → step s = .next { s0 with pos := w }) ∧
    (reg = 1 ∨ (9 ≤ reg ∧ reg ≤ 15) → step s = .next s0) ∧
    (17 ≤ reg → step s = .refused (.reservedRegister reg))

/-- R30: every read by the host: the register's value, zero-extended, is answered and no register and no stream byte changes;
an UNSPEC register answers some word of its range; numbers from 17 on are refused. That answers are kept in `replies` is the
model's choice (notes/assumptions/2.md). -/
def Obligations.HostReadAnswersTheRegister : Prop :=
  ∀ (s : State) (reg : Nat) (rest : List HostMove), s.pending = .read reg :: rest →
    (reg ≤ 16 → ∃ t x, step s = .next t ∧ t.replies = s.replies ++ [x] ∧ t.pending = rest ∧
      t.status = s.status ∧ s.operandsKept t ∧ t.rval = s.rval ∧ t.rsize = s.rsize ∧ t.ob = s.ob ∧ t.pos = s.pos ∧
      s.streamKept t ∧
      (reg = 0 → x = 0#32) ∧ (reg = 1 → x.toNat = s.status.code.toNat) ∧ (reg = 2 → x = s.vin) ∧ (reg = 3 → x = s.ilen) ∧
      (∀ i < 5, reg = 4 + i → x.toNat = (s.ibAt i).toNat) ∧
      (reg = 9 → ∀ v, s.rval = .known v → x = v) ∧
      (reg = 10 → x.toNat < 2 ^ 3 ∧ ∀ v, s.rsize = .known v → x.toNat = v.toNat) ∧
      (∀ i < 5, reg = 11 + i → x.toNat < 2 ^ 8 ∧ ∀ v, s.obAt i = .known v → x.toNat = v.toNat) ∧
      (reg = 16 → x = s.pos)) ∧
    (17 ≤ reg → step s = .refused (.reservedRegister reg))

/-- R56: the writes a `SLICE` line stands for leave `ILEN` the number of bytes and the first five of them in `IB`, the other
bytes of `IB` and everything else as before; the host's list of moves and its answers are the model's (notes/assumptions/2.md). -/
def Obligations.SliceLineLoadsTheOperand : Prop :=
  ∀ (s : State) (bytes : List Byte), bytes.length < 2 ^ 32 →
    ∃ t, Host.Core.run core (asmMoves (.slice bytes)).length { s with pending := asmMoves (.slice bytes) } = .next t ∧
      t.pending = [] ∧ t.ilen.toNat = bytes.length ∧
      (∀ i < 5, t.ibAt i = if h : i < bytes.length then bytes[i] else s.ibAt i) ∧
      t.status = s.status ∧ t.vin = s.vin ∧ t.rval = s.rval ∧ t.rsize = s.rsize ∧ t.ob = s.ob ∧ t.pos = s.pos ∧
      t.stream = s.stream ∧ t.replies = s.replies

/-- R97, R27: a reset in any state puts every register at the table's value; R98: it leaves the stream alone. That it also leaves
the host's other moves and its answers alone (`t.pending = rest`, `t.replies = s.replies`) is the model's choice,
notes/assumptions/7.md. -/
def Obligations.ResetSetsEveryRegister : Prop :=
  ∀ (s : State) (rest : List HostMove), s.pending = .reset :: rest →
    ∃ t, step s = .next t ∧ t.status = .none ∧ t.status.code = 0#3 ∧ t.vin = 0#32 ∧ t.ilen = 0#32 ∧ (∀ i < 5, t.ibAt i = 0#8) ∧
      t.resultsUnspec ∧ t.pos = 0#32 ∧ s.streamKept t ∧ t.pending = rest ∧ t.replies = s.replies

/-- R27: the state the model starts in has the table's values. (That no stream is attached there is the model's choice,
notes/assumptions/4.md, and is not stated.) -/
def Obligations.ResetStateHasTheTableValues : Prop :=
  State.reset.status = .none ∧ State.reset.vin = 0#32 ∧ State.reset.ilen = 0#32 ∧ (∀ i < 5, State.reset.ibAt i = 0#8) ∧
    State.reset.resultsUnspec ∧ State.reset.pos = 0#32

/-- R10, R99: a decode right after reset, with the reset value `ILEN = 0`, fails `InvalidVarint`. -/
def Obligations.DecodeRightAfterResetFails : Prop :=
  ∀ (s t u : State) (i : Instr) (rest : List HostMove), (i = .decs ∨ ∃ b, i = .decu b) → s.pending = .reset :: rest →
    step s = .next t → exec i t = .next u → u.status = .invalidVarint

/-- A step answers a next state exactly where no host move is pending or the next one is meaningful: an access to registers 0
to 16 (R22, R81), a reset (R97), or one of the model's own moves (notes/assumptions/5.md, 16.md) within the stream's bounds (R31).
That a step with no move pending goes on is the model's choice too (notes/assumptions/6.md). -/
def Obligations.OnlyMeaninglessHostMovesStop : Prop :=
  ∀ s : State, safeStep s ↔ ∀ move rest, s.pending = move :: rest → move.meaningful s.stream

/-- Every step keeps the invariant: the stream's canonical form, results UNSPEC unless `OK`, `RSIZE` 1 to 5 after `OK` and `OB`
an encoding in wire form or UNSPEC (R13, R14, R19, R27, R84). -/
def Obligations.EveryStepKeepsTheInvariant : Prop :=
  ∀ s t : State, s.Inv → step s = .next t → t.Inv

/-- The invariant holds after reset. -/
def Obligations.ResetMeetsTheInvariant : Prop := State.reset.Inv
end

