-- ==== Sys2Proof/Laws/Memory.lean ====
section
/-! SUPPORT. The stream: reading after a change, and that every operation on it keeps the canonical form. -/

namespace Sys2Proof.Machine

/-- The canonical form does not depend on a smaller lower bound. -/
theorem cellsWf_mono {hi lo lo' : Nat} {l : List Host.Cell} (h : lo' ≤ lo) (hl : Memory.cellsWf hi lo l = true) :
    Memory.cellsWf hi lo' l = true := by
  cases l with
  | nil => rfl
  | cons c rest =>
    simp only [Memory.cellsWf, Bool.and_eq_true, decide_eq_true_eq] at hl ⊢
    exact ⟨⟨⟨h.trans hl.1.1.1, hl.1.1.2⟩, hl.1.2⟩, hl.2⟩

/-- An address below every listed one reads as unlisted. -/
theorem cellsGet_below {hi lo p : Nat} {l : List Host.Cell} (hl : Memory.cellsWf hi lo l = true) (hp : p < lo) :
    cellsGet l p = Memory.unlisted := by
  induction l generalizing lo with
  | nil => rfl
  | cons c rest ih =>
    simp only [Memory.cellsWf, Bool.and_eq_true, decide_eq_true_eq] at hl
    have hne : c.1 ≠ p := by omega
    simp only [cellsGet, hne, if_false]
    exact ih hl.2 (by omega)

/-- Setting a byte keeps the canonical form. -/
theorem cellsSet_wf {hi lo p : Nat} {l : List Host.Cell} (b : Byte) (hl : Memory.cellsWf hi lo l = true) (h1 : lo ≤ p)
    (h2 : p < hi) : Memory.cellsWf hi lo (cellsSet l p b) = true := by
  induction l generalizing lo with
  | nil =>
    by_cases hb : b = Memory.unlisted <;> simp [cellsSet, hb, Memory.cellsWf, h1, h2]
  | cons c rest ih =>
    obtain ⟨a, d⟩ := c
    simp only [Memory.cellsWf, Bool.and_eq_true, decide_eq_true_eq] at hl
    obtain ⟨⟨⟨ha, hah⟩, hd⟩, hr⟩ := hl
    unfold cellsSet
    split
    · simp only [Memory.cellsWf, Bool.and_eq_true, decide_eq_true_eq]
      exact ⟨⟨⟨ha, hah⟩, hd⟩, ih hr (by omega)⟩
    · split
      · subst_vars
        split
        · exact cellsWf_mono (by omega) hr
        · simp_all [Memory.cellsWf]
      · split
        · simp_all [Memory.cellsWf]
        · simp_all [Memory.cellsWf]
          omega

/-- Read after write on cells in canonical form. -/
theorem cellsGet_cellsSet {hi lo p q : Nat} {l : List Host.Cell} (b : Byte) (hl : Memory.cellsWf hi lo l = true) :
    cellsGet (cellsSet l p b) q = if q = p then b else cellsGet l q := by
  induction l generalizing lo with
  | nil =>
    rcases eq_or_ne q p with rfl | hq
    · by_cases hb : b = Memory.unlisted <;> simp [cellsSet, cellsGet, hb]
    · by_cases hb : b = Memory.unlisted <;> simp [cellsSet, cellsGet, hb, hq, hq.symm]
  | cons c rest ih =>
    obtain ⟨a, d⟩ := c
    simp only [Memory.cellsWf, Bool.and_eq_true, decide_eq_true_eq] at hl
    obtain ⟨⟨⟨ha, hah⟩, hd⟩, hr⟩ := hl
    unfold cellsSet
    split
    · rename_i hlt
      simp only [cellsGet, ih hr]
      by_cases haq : a = q
      · have : q ≠ p := by omega
        simp [haq, this]
      · simp [haq]
    · split
      · subst_vars
        by_cases hb : b = Memory.unlisted
        · by_cases hq : q = a
          · subst hq
            simp [hb, cellsGet_below hr (Nat.lt_succ_self q)]
          · simp [hb, cellsGet, hq, Ne.symm hq]
        · rcases eq_or_ne q a with rfl | hq
          · simp [hb, cellsGet]
          · simp [hb, cellsGet, hq, hq.symm]
      · rename_i hlt hne
        by_cases hb : b = Memory.unlisted
        · by_cases hq : q = p
          · subst hq
            simp [hb, cellsGet, hne, cellsGet_below hr (show q < a + 1 by omega)]
          · simp [hb, hq]
        · rcases eq_or_ne q p with rfl | hq
          · simp [hb, cellsGet]
          · simp [hb, cellsGet, hq, hq.symm]

/-- The cells of a byte sequence are in canonical form. -/
theorem cellsOfBytes_wf {hi : Nat} (lo : Nat) (l : List Byte) (h : lo + l.length ≤ hi) :
    Memory.cellsWf hi lo (cellsOfBytes lo l) = true := by
  induction l generalizing lo with
  | nil => rfl
  | cons b rest ih =>
    simp only [List.length_cons] at h
    have hrest := ih (lo + 1) (by omega)
    by_cases hb : b = Memory.unlisted
    · simpa [cellsOfBytes, hb] using cellsWf_mono (Nat.le_succ lo) hrest
    · simp [cellsOfBytes, hb, Memory.cellsWf, hrest]
      omega

/-- The cells of a byte sequence laid from `lo` on read as that sequence. -/
theorem cellsGet_cellsOfBytes (lo : Nat) (l : List Byte) (i : Nat) :
    cellsGet (cellsOfBytes lo l) (lo + i) = l.getD i Memory.unlisted := by
  induction l generalizing lo i with
  | nil => rfl
  | cons b rest ih =>
    have hw : Memory.cellsWf (lo + 1 + rest.length) (lo + 1) (cellsOfBytes (lo + 1) rest) = true :=
      cellsOfBytes_wf _ _ (Nat.le_refl _)
    cases i with
    | zero =>
      by_cases hb : b = Memory.unlisted
      · simpa [cellsOfBytes, hb] using cellsGet_below hw (Nat.lt_succ_self lo)
      · simp [cellsOfBytes, hb, cellsGet]
    | succ j =>
      have h := ih (lo + 1) j
      rw [Nat.add_right_comm, Nat.add_assoc] at h
      by_cases hb : b = Memory.unlisted
      · simpa [cellsOfBytes, hb] using h
      · have hne : lo ≠ lo + (j + 1) := by omega
        simpa [cellsOfBytes, hb, cellsGet, hne] using h

/-- Everything `pokeByte` can do: it answers below `SLEN` only, keeps the length and the canonical form, and changes the one byte. -/
theorem pokeByte_some {m m' : Memory} {p : Nat} {b : Byte} (hm : m.wf = true) (h : pokeByte m p b = some m') :
    p < m.slen.val ∧ m'.slen = m.slen ∧ m'.wf = true ∧
      ∀ q, memRead m' q = if q = p then .ok b else memRead m q := by
  unfold pokeByte at h
  split at h
  · rename_i hp
    obtain rfl := Option.some.inj h
    refine ⟨hp, rfl, cellsSet_wf b hm (Nat.zero_le p) hp, fun q => ?_⟩
    simp only [memRead, cellsGet_cellsSet b hm]
    by_cases hq : q = p
    · simp [hq, hp]
    · simp [hq]
  · cases h

/-- Everything `streamOf` can do: a stream in canonical form, of the bytes' length, that reads as the bytes. -/
theorem streamOf_some {m : Memory} {bytes : List Byte} (h : streamOf bytes = some m) :
    m.slen.val = bytes.length ∧ m.wf = true ∧
      ∀ p, memRead m p = if p < bytes.length then .ok (bytes.getD p 0#8) else .error .streamEnd := by
  unfold streamOf at h
  split at h
  · obtain rfl := Option.some.inj h
    refine ⟨rfl, cellsOfBytes_wf 0 bytes (by simp), fun p => ?_⟩
    have hget := cellsGet_cellsOfBytes 0 bytes p
    rw [Nat.zero_add] at hget
    simp only [memRead, hget, Memory.unlisted]
  · cases h

theorem memory_empty_wf : Memory.empty.wf = true := rfl

theorem memRead_below {m : Memory} {p : Nat} (h : p < m.slen.val) : memRead m p = .ok (cellsGet m.cells p) := if_pos h

theorem memRead_end {m : Memory} {p : Nat} (h : m.slen.val ≤ p) : memRead m p = .error .streamEnd :=
  if_neg (Nat.not_lt.2 h)

/-- A successful read is below `SLEN`, and the only failure is the stream's end (R33). -/
theorem memRead_cases (m : Memory) (p : Nat) :
    (∃ b, memRead m p = .ok b ∧ p < m.slen.val) ∨ (memRead m p = .error .streamEnd ∧ m.slen.val ≤ p) := by
  rcases Nat.lt_or_ge p m.slen.val with h | h
  · exact .inl ⟨_, memRead_below h, h⟩
  · exact .inr ⟨memRead_end h, h⟩

end Sys2Proof.Machine
end

