-- ==== Sys2Proof/Laws/Operands.lean ====
section
/-! SUPPORT. What the slice, the scan, the probe and the read phase can do: one lemma per operation, cited instead of unfolding it. -/

namespace Sys2Proof.Machine

/-! ### the slice -/

/-- DECU's and DECS's slice: `InvalidVarint` on a bad length, else the first `ILEN` bytes of `IB`, `1 <= ILEN <= 5` of them. -/
theorem slice_cases (s : State) :
    ((s.ilen.toNat = 0 ∨ 5 < s.ilen.toNat) ∧ s.slice = .error .invalidVarint) ∨
    (1 ≤ s.ilen.toNat ∧ s.ilen.toNat ≤ 5 ∧ s.slice = .ok (s.ib.toList.take s.ilen.toNat) ∧
      (s.ib.toList.take s.ilen.toNat).length = s.ilen.toNat) := by
  have hz : s.ilen = 0#32 ↔ s.ilen.toNat = 0 := by rw [← BitVec.toNat_inj]; rfl
  have hl : s.ib.toList.length = 5 := by simp
  rcases Nat.eq_zero_or_pos s.ilen.toNat with h0 | h0
  · exact .inl ⟨.inl h0, if_pos (.inl (hz.2 h0))⟩
  · rcases Nat.lt_or_ge 5 s.ilen.toNat with h5 | h5
    · exact .inl ⟨.inr h5, if_pos (.inr h5)⟩
    · refine .inr ⟨h0, h5, if_neg ?_, by rw [List.length_take, hl]; omega⟩
      rw [hz]
      simp only [Config.maxLen]
      omega

/-! ### payload and scan -/

theorem groupOf_lt (b : Byte) : groupOf b < 2 ^ 7 := by
  have h : b &&& 0x7F#8 ≤ 0x7F#8 := by
    rw [BitVec.le_def, BitVec.toNat_and]
    exact Nat.and_le_right
  exact Nat.lt_of_le_of_lt h (by decide)

theorem payload_lt (l : List Byte) : payload l < 2 ^ (7 * l.length) := by
  induction l with
  | nil => simp [payload]
  | cons b rest ih =>
    have hb := groupOf_lt b
    have hp : 2 ^ (7 * (b :: rest).length) = 2 ^ (7 * rest.length) * 2 ^ 7 := by
      rw [List.length_cons, Nat.mul_succ, Nat.pow_add]
    simp only [payload, hp]
    omega

/-- Adding a group above an accumulator is the scan's OR (R62). -/
theorem or_group_eq_add {acc k : Nat} (g : Nat) (h : acc < 2 ^ (7 * k)) : acc ||| g <<< (7 * k) = acc + g * 2 ^ (7 * k) := by
  rw [Nat.lor_comm, Nat.shiftLeft_eq, Nat.mul_comm, Nat.two_pow_add_eq_or_of_lt h g |>.symm, Nat.add_comm]

/-- The scan (R62): where the first `j` bytes are all continued but the last, and the last one is a terminator or the slice's
end, it consumes exactly those and accumulates their payload. -/
theorem scanFrom_eq {acc k : Nat} (last : Byte) (l : List Byte) (j : Nat) (hacc : acc < 2 ^ (7 * k)) (hj : j < l.length)
    (hcont : ∀ i < j, contBit (l.getD i 0#8) = true) (hend : contBit (l.getD j 0#8) = false ∨ j + 1 = l.length) :
    scanFrom acc k last l = ⟨acc + payload (l.take (j + 1)) * 2 ^ (7 * k), k + (j + 1), l.getD j 0#8⟩ := by
  induction l generalizing acc k last j with
  | nil => cases hj
  | cons b rest ih =>
    have hb := groupOf_lt b
    have hstep : acc + groupOf b * 2 ^ (7 * k) < 2 ^ (7 * (k + 1)) := by
      have : 2 ^ (7 * (k + 1)) = 2 ^ 7 * 2 ^ (7 * k) := by rw [← Nat.pow_add]; congr 1; omega
      have := Nat.mul_le_mul_right (2 ^ (7 * k)) (Nat.succ_le_of_lt hb)
      rw [Nat.succ_mul] at this
      omega
    cases j with
    | zero =>
      rcases hend with he | he
      · have he' : contBit b = false := by simpa using he
        simp [scanFrom, he', or_group_eq_add _ hacc, payload]
      · obtain rfl : rest = [] := by
          simpa using he.symm
        by_cases hc : contBit b = true <;> simp [scanFrom, hc, or_group_eq_add _ hacc, payload]
    | succ j =>
      have hc : contBit b = true := by simpa using hcont 0 (Nat.succ_pos j)
      have := ih (acc := acc + groupOf b * 2 ^ (7 * k)) (k := k + 1) b j hstep (by simpa using hj)
        (fun i hi => by simpa using hcont (i + 1) (by omega)) (by simpa using hend)
      have hpow : 2 ^ (7 * (k + 1)) = 2 ^ 7 * 2 ^ (7 * k) := by rw [← Nat.pow_add]; congr 1; omega
      simp only [scanFrom, hc, if_true, or_group_eq_add _ hacc, this, List.take_succ_cons, payload, Scan.mk.injEq, List.getD_cons_succ, and_true]
      refine ⟨?_, by omega⟩
      rw [hpow]
      ring

/-- `scan` of a slice whose first `j + 1` bytes end it (R62). -/
theorem scan_eq (l : List Byte) (j : Nat) (hj : j < l.length) (hcont : ∀ i < j, contBit (l.getD i 0#8) = true)
    (hend : contBit (l.getD j 0#8) = false ∨ j + 1 = l.length) :
    scan l = ⟨payload (l.take (j + 1)), j + 1, l.getD j 0#8⟩ := by
  simpa [scan] using scanFrom_eq (acc := 0) (k := 0) 0#8 l j (by simp) hj hcont hend

/-- Every non-empty slice has a byte the scan ends at: the first terminator, or the last byte where there is none. -/
theorem scan_end_exists (l : List Byte) (h : l ≠ []) :
    ∃ j < l.length, (∀ i < j, contBit (l.getD i 0#8) = true) ∧ (contBit (l.getD j 0#8) = false ∨ j + 1 = l.length) := by
  induction l with
  | nil => exact absurd rfl h
  | cons b rest ih =>
    by_cases hc : contBit b = true
    · rcases List.eq_nil_or_concat rest with hr | ⟨_, _, hr⟩
      · exact ⟨0, by simp, by simp, by simp [hr]⟩
      · obtain ⟨j, hj, h1, h2⟩ := ih (by simp [hr])
        refine ⟨j + 1, by simpa using hj, fun i hi => ?_, by simpa using h2⟩
        cases i with
        | zero => simpa using hc
        | succ i => simpa using h1 i (by omega)
    · exact ⟨0, by simp, by simp, .inl (by simpa using hc)⟩

/-! ### the probe and the read phase -/

/-- Everything the probe's loop can do (R72): it answers a count with the bytes it examined, or the stream ends first. -/
theorem probeFrom_cases (m : Memory) (p0 c more : Nat) :
    (∃ n last, probeFrom m p0 c more = .ok (n, last) ∧ c < n ∧ n ≤ c + more + 1 ∧
      (∀ i, c ≤ i → i + 1 < n → ∃ b, memRead m (p0 + i) = .ok b ∧ contBit b = true) ∧
      memRead m (p0 + (n - 1)) = .ok last ∧ (contBit last = true → n = c + more + 1)) ∨
    (probeFrom m p0 c more = .error .streamEnd ∧
      ∃ n, c ≤ n ∧ n ≤ c + more ∧ m.slen.val ≤ p0 + n ∧
        ∀ i, c ≤ i → i < n → ∃ b, memRead m (p0 + i) = .ok b ∧ contBit b = true) := by
  induction more generalizing c with
  | zero =>
    rcases memRead_cases m (p0 + c) with ⟨b, hb, -⟩ | ⟨he, hs⟩
    · refine .inl ⟨c + 1, b, by simp [probeFrom, hb], by omega, by omega, fun i h1 h2 => by omega, by simpa using hb, fun _ => rfl⟩
    · exact .inr ⟨by simp [probeFrom, he], c, le_rfl, by omega, hs, fun i h1 h2 => by omega⟩
  | succ more ih =>
    rcases memRead_cases m (p0 + c) with ⟨b, hb, -⟩ | ⟨he, hs⟩
    · by_cases hc : contBit b = true
      · have hunf : probeFrom m p0 c (more + 1) = probeFrom m p0 (c + 1) more := by simp [probeFrom, hb, hc]
        rw [hunf]
        have hfirst : ∀ i, c ≤ i → ¬ c + 1 ≤ i → ∃ b, memRead m (p0 + i) = .ok b ∧ contBit b = true := by
          intro i h1 h2
          obtain rfl : i = c := by omega
          exact ⟨b, hb, hc⟩
        rcases ih (c + 1) with ⟨n, last, h, h1, h2, h3, h4, h5⟩ | ⟨h, n, h1, h2, h3, h4⟩
        · refine .inl ⟨n, last, h, by omega, by omega, fun i hi hn => ?_, h4, fun hl => by have := h5 hl; omega⟩
          by_cases hi' : c + 1 ≤ i
          · exact h3 i hi' hn
          · exact hfirst i hi hi'
        · refine .inr ⟨h, n, by omega, by omega, h3, fun i hi hn => ?_⟩
          by_cases hi' : c + 1 ≤ i
          · exact h4 i hi' hn
          · exact hfirst i hi hi'
      · refine .inl ⟨c + 1, b, by simp [probeFrom, hb, hc], by omega, by omega, fun i h1 h2 => by omega, by simpa using hb, fun h => absurd h hc⟩
    · exact .inr ⟨by simp [probeFrom, he], c, le_rfl, by omega, hs, fun i h1 h2 => by omega⟩

/-- Everything the probe can do (R72, R82): a count of 1 to 5 with its last byte, or `StreamEnd`. -/
theorem probe_cases (m : Memory) (p0 : Nat) :
    (∃ n last, probe m p0 = .ok (n, last) ∧ 1 ≤ n ∧ n ≤ 5 ∧
      (∀ i, i + 1 < n → ∃ b, memRead m (p0 + i) = .ok b ∧ contBit b = true) ∧
      memRead m (p0 + (n - 1)) = .ok last ∧ (contBit last = true → n = 5)) ∨
    (probe m p0 = .error .streamEnd ∧
      ∃ n < 5, m.slen.val ≤ p0 + n ∧ ∀ i < n, ∃ b, memRead m (p0 + i) = .ok b ∧ contBit b = true) := by
  rcases probeFrom_cases m p0 0 4 with ⟨n, last, h, h1, h2, h3, h4, h5⟩ | ⟨h, n, -, h2, h3, h4⟩
  · exact .inl ⟨n, last, h, h1, by omega, fun i hi => h3 i (Nat.zero_le i) hi, h4, fun hl => by have := h5 hl; omega⟩
  · exact .inr ⟨h, n, by omega, h3, fun i hi => h4 i (Nat.zero_le i) hi⟩

/-- The read phase (R75): where every position exists it answers the bytes. -/
theorem readn_of_bytes (m : Memory) (p c : Nat) (t : Nat → Byte) (h : ∀ i < c, memRead m (p + i) = .ok (t i)) :
    readn m p c = .ok ((List.range c).map t) := by
  induction c generalizing p t with
  | zero => rfl
  | succ c ih =>
    have h0 : memRead m p = .ok (t 0) := by simpa using h 0 (Nat.succ_pos c)
    have hr := ih (p + 1) (fun i => t (i + 1)) fun i hi => by
      have := h (i + 1) (by omega)
      rwa [← Nat.add_right_comm, Nat.add_assoc] at *
    simp only [readn, h0, hr, Except.ok.injEq]
    rw [List.range_succ_eq_map, List.map_cons, List.map_map]
    rfl

/-- Everything the read phase can do (R75): the bytes, or the stream ends. -/
theorem readn_ok {m : Memory} {p c : Nat} {l : List Byte} (h : readn m p c = .ok l) :
    l.length = c ∧ ∀ i < c, memRead m (p + i) = .ok (l.getD i 0#8) := by
  induction c generalizing p l with
  | zero =>
    obtain rfl : [] = l := by simpa [readn] using h
    exact ⟨rfl, fun i hi => absurd hi (Nat.not_lt_zero i)⟩
  | succ c ih =>
    simp only [readn] at h
    rcases memRead_cases m p with ⟨b, hb, -⟩ | ⟨he, -⟩
    · simp only [hb] at h
      cases hr : readn m (p + 1) c with
      | error f => simp [hr] at h
      | ok rest =>
        obtain rfl : b :: rest = l := by simpa [hr] using h
        obtain ⟨h1, h2⟩ := ih hr
        refine ⟨by simp [h1], fun i hi => ?_⟩
        cases i with
        | zero => simpa using hb
        | succ i =>
          have := h2 i (by omega)
          rw [Nat.add_right_comm, Nat.add_assoc] at this
          simpa using this
    · simp [he] at h

end Sys2Proof.Machine
end

