-- ==== Sys2Proof/Laws/State.lean ====
section
/-! SUPPORT. One lemma per field for each update of State, so that no proof unfolds a record update. -/

namespace Sys2Proof.Machine

/-! ### `State.complete` -/

@[simp] theorem State.complete_status (s : State) (st : Status) (r : Results) : (s.complete st r).status = st := rfl
@[simp] theorem State.complete_vin (s : State) (st : Status) (r : Results) : (s.complete st r).vin = s.vin := rfl
@[simp] theorem State.complete_ilen (s : State) (st : Status) (r : Results) : (s.complete st r).ilen = s.ilen := rfl
@[simp] theorem State.complete_ib (s : State) (st : Status) (r : Results) : (s.complete st r).ib = s.ib := rfl
@[simp] theorem State.complete_rval (s : State) (st : Status) (r : Results) : (s.complete st r).rval = r.rval := rfl
@[simp] theorem State.complete_rsize (s : State) (st : Status) (r : Results) : (s.complete st r).rsize = r.rsize := rfl
@[simp] theorem State.complete_ob (s : State) (st : Status) (r : Results) : (s.complete st r).ob = r.ob := rfl
@[simp] theorem State.complete_pos (s : State) (st : Status) (r : Results) : (s.complete st r).pos = s.pos := rfl
@[simp] theorem State.complete_stream (s : State) (st : Status) (r : Results) : (s.complete st r).stream = s.stream := rfl
@[simp] theorem State.complete_pending (s : State) (st : Status) (r : Results) : (s.complete st r).pending = s.pending := rfl
@[simp] theorem State.complete_replies (s : State) (st : Status) (r : Results) : (s.complete st r).replies = s.replies := rfl
@[simp] theorem State.complete_draws (s : State) (st : Status) (r : Results) : (s.complete st r).draws = s.draws + 1 := rfl

/-! ### `State.fail` -/

@[simp] theorem State.fail_status (s : State) (f : Failure) : (s.fail f).status = f.status := rfl
@[simp] theorem State.fail_vin (s : State) (f : Failure) : (s.fail f).vin = s.vin := rfl
@[simp] theorem State.fail_ilen (s : State) (f : Failure) : (s.fail f).ilen = s.ilen := rfl
@[simp] theorem State.fail_ib (s : State) (f : Failure) : (s.fail f).ib = s.ib := rfl
@[simp] theorem State.fail_rval (s : State) (f : Failure) : (s.fail f).rval = .unspec := rfl
@[simp] theorem State.fail_rsize (s : State) (f : Failure) : (s.fail f).rsize = .unspec := rfl
@[simp] theorem State.fail_ob (s : State) (f : Failure) : (s.fail f).ob = Results.unspec.ob := rfl
@[simp] theorem State.fail_pos (s : State) (f : Failure) : (s.fail f).pos = s.pos := rfl
@[simp] theorem State.fail_stream (s : State) (f : Failure) : (s.fail f).stream = s.stream := rfl
@[simp] theorem State.fail_pending (s : State) (f : Failure) : (s.fail f).pending = s.pending := rfl
@[simp] theorem State.fail_replies (s : State) (f : Failure) : (s.fail f).replies = s.replies := rfl
@[simp] theorem State.fail_draws (s : State) (f : Failure) : (s.fail f).draws = s.draws + 1 := rfl

/-! ### `State.finish` -/

@[simp] theorem State.finish_error (s : State) (f : Failure) : s.finish (.error f) = s.fail f := rfl

@[simp] theorem State.finish_ok_status (s : State) (e : Effect) : (s.finish (.ok e)).status = .ok := rfl
@[simp] theorem State.finish_ok_vin (s : State) (e : Effect) : (s.finish (.ok e)).vin = s.vin := rfl
@[simp] theorem State.finish_ok_ilen (s : State) (e : Effect) : (s.finish (.ok e)).ilen = s.ilen := rfl
@[simp] theorem State.finish_ok_ib (s : State) (e : Effect) : (s.finish (.ok e)).ib = s.ib := rfl
@[simp] theorem State.finish_ok_rval (s : State) (e : Effect) : (s.finish (.ok e)).rval = e.results.rval := rfl
@[simp] theorem State.finish_ok_rsize (s : State) (e : Effect) : (s.finish (.ok e)).rsize = e.results.rsize := rfl
@[simp] theorem State.finish_ok_ob (s : State) (e : Effect) : (s.finish (.ok e)).ob = e.results.ob := rfl
@[simp] theorem State.finish_ok_pos (s : State) (e : Effect) : (s.finish (.ok e)).pos = e.pos := rfl
@[simp] theorem State.finish_ok_stream (s : State) (e : Effect) : (s.finish (.ok e)).stream = s.stream := rfl
@[simp] theorem State.finish_ok_pending (s : State) (e : Effect) : (s.finish (.ok e)).pending = s.pending := rfl
@[simp] theorem State.finish_ok_replies (s : State) (e : Effect) : (s.finish (.ok e)).replies = s.replies := rfl
@[simp] theorem State.finish_ok_draws (s : State) (e : Effect) : (s.finish (.ok e)).draws = s.draws + 1 := rfl

/-! ### `State.answer` -/

@[simp] theorem State.answer_status (s : State) (r : Reg) : (s.answer r).status = s.status := rfl
@[simp] theorem State.answer_vin (s : State) (r : Reg) : (s.answer r).vin = s.vin := rfl
@[simp] theorem State.answer_ilen (s : State) (r : Reg) : (s.answer r).ilen = s.ilen := rfl
@[simp] theorem State.answer_ib (s : State) (r : Reg) : (s.answer r).ib = s.ib := rfl
@[simp] theorem State.answer_rval (s : State) (r : Reg) : (s.answer r).rval = s.rval := rfl
@[simp] theorem State.answer_rsize (s : State) (r : Reg) : (s.answer r).rsize = s.rsize := rfl
@[simp] theorem State.answer_ob (s : State) (r : Reg) : (s.answer r).ob = s.ob := rfl
@[simp] theorem State.answer_pos (s : State) (r : Reg) : (s.answer r).pos = s.pos := rfl
@[simp] theorem State.answer_stream (s : State) (r : Reg) : (s.answer r).stream = s.stream := rfl
@[simp] theorem State.answer_pending (s : State) (r : Reg) : (s.answer r).pending = s.pending := rfl
@[simp] theorem State.answer_replies (s : State) (r : Reg) : (s.answer r).replies = s.replies ++ [s.regValue r] := rfl
@[simp] theorem State.answer_draws (s : State) (r : Reg) : (s.answer r).draws = s.draws + 1 := rfl

/-! ### `State.resetCore` -/

@[simp] theorem State.resetCore_status (s : State) : (s.resetCore).status = .none := rfl
@[simp] theorem State.resetCore_vin (s : State) : (s.resetCore).vin = 0#32 := rfl
@[simp] theorem State.resetCore_ilen (s : State) : (s.resetCore).ilen = 0#32 := rfl
@[simp] theorem State.resetCore_ib (s : State) : (s.resetCore).ib = State.reset.ib := rfl
@[simp] theorem State.resetCore_rval (s : State) : (s.resetCore).rval = .unspec := rfl
@[simp] theorem State.resetCore_rsize (s : State) : (s.resetCore).rsize = .unspec := rfl
@[simp] theorem State.resetCore_ob (s : State) : (s.resetCore).ob = Results.unspec.ob := rfl
@[simp] theorem State.resetCore_pos (s : State) : (s.resetCore).pos = 0#32 := rfl
@[simp] theorem State.resetCore_stream (s : State) : (s.resetCore).stream = s.stream := rfl
@[simp] theorem State.resetCore_pending (s : State) : (s.resetCore).pending = s.pending := rfl
@[simp] theorem State.resetCore_replies (s : State) : (s.resetCore).replies = s.replies := rfl
@[simp] theorem State.resetCore_draws (s : State) : (s.resetCore).draws = s.draws + 1 := rfl

/-! ### `queueCommand` -/

@[simp] theorem queueCommand_status (s : State) (w : Word) : (queueCommand s w).status = s.status := rfl
@[simp] theorem queueCommand_vin (s : State) (w : Word) : (queueCommand s w).vin = s.vin := rfl
@[simp] theorem queueCommand_ilen (s : State) (w : Word) : (queueCommand s w).ilen = s.ilen := rfl
@[simp] theorem queueCommand_ib (s : State) (w : Word) : (queueCommand s w).ib = s.ib := rfl
@[simp] theorem queueCommand_rval (s : State) (w : Word) : (queueCommand s w).rval = s.rval := rfl
@[simp] theorem queueCommand_rsize (s : State) (w : Word) : (queueCommand s w).rsize = s.rsize := rfl
@[simp] theorem queueCommand_ob (s : State) (w : Word) : (queueCommand s w).ob = s.ob := rfl
@[simp] theorem queueCommand_pos (s : State) (w : Word) : (queueCommand s w).pos = s.pos := rfl
@[simp] theorem queueCommand_stream (s : State) (w : Word) : (queueCommand s w).stream = s.stream := rfl
@[simp] theorem queueCommand_pending (s : State) (w : Word) : (queueCommand s w).pending = .write 0 w :: s.pending := rfl
@[simp] theorem queueCommand_replies (s : State) (w : Word) : (queueCommand s w).replies = s.replies := rfl
@[simp] theorem queueCommand_draws (s : State) (w : Word) : (queueCommand s w).draws = s.draws := rfl

/-! ### `State.storeReg`: every register but the one written is kept, and the read-only ones are never written -/

@[simp] theorem State.storeReg_status (s : State) (r : Reg) (w : Word) : (s.storeReg r w).status = s.status := by cases r <;> rfl
@[simp] theorem State.storeReg_rval (s : State) (r : Reg) (w : Word) : (s.storeReg r w).rval = s.rval := by cases r <;> rfl
@[simp] theorem State.storeReg_rsize (s : State) (r : Reg) (w : Word) : (s.storeReg r w).rsize = s.rsize := by cases r <;> rfl
@[simp] theorem State.storeReg_ob (s : State) (r : Reg) (w : Word) : (s.storeReg r w).ob = s.ob := by cases r <;> rfl
@[simp] theorem State.storeReg_stream (s : State) (r : Reg) (w : Word) : (s.storeReg r w).stream = s.stream := by cases r <;> rfl
@[simp] theorem State.storeReg_pending (s : State) (r : Reg) (w : Word) : (s.storeReg r w).pending = s.pending := by cases r <;> rfl
@[simp] theorem State.storeReg_replies (s : State) (r : Reg) (w : Word) : (s.storeReg r w).replies = s.replies := by cases r <;> rfl
@[simp] theorem State.storeReg_draws (s : State) (r : Reg) (w : Word) : (s.storeReg r w).draws = s.draws := by cases r <;> rfl

/-! ### results -/

@[simp] theorem Results.unspec_rval : Results.unspec.rval = .unspec := rfl
@[simp] theorem Results.unspec_rsize : Results.unspec.rsize = .unspec := rfl
@[simp] theorem decodeResults_rval (v : Word) (n : Nat) : (decodeResults v n).rval = .known v := rfl
@[simp] theorem decodeResults_rsize (v : Word) (n : Nat) : (decodeResults v n).rsize = .known (BitVec.ofNat 3 n) := rfl
@[simp] theorem decodeResults_ob (v : Word) (n : Nat) : (decodeResults v n).ob = Results.unspec.ob := rfl
@[simp] theorem peekResults_rval (n : Nat) : (peekResults n).rval = .unspec := rfl
@[simp] theorem peekResults_rsize (n : Nat) : (peekResults n).rsize = .known (BitVec.ofNat 3 n) := rfl
@[simp] theorem peekResults_ob (n : Nat) : (peekResults n).ob = Results.unspec.ob := rfl
@[simp] theorem encodeResults_rval (l : List Byte) : (encodeResults l).rval = .unspec := rfl
@[simp] theorem encodeResults_rsize (l : List Byte) : (encodeResults l).rsize = .known (BitVec.ofNat 3 l.length) := rfl
@[simp] theorem Result.value_known (w : Nat) (free v : BitVec w) : (Result.known v).value free = v := rfl
@[simp] theorem Result.value_unspec (w : Nat) (free : BitVec w) : (Result.unspec).value free = free := rfl

end Sys2Proof.Machine
end

