-- ==== Sys2Proof/Laws/Step.lean ====
section
/-! SUPPORT. What a command, a host move and a step can do, said once. -/

namespace Sys2Proof.Machine

/-- Every command goes on, and is a completion of the state it starts in (R81). -/
theorem exec_finish (i : Instr) (s : State) : ∃ o, exec i s = .next (s.finish o) := by
  cases i <;> exact ⟨_, rfl⟩

/-- Every byte written to `CMD` is a completion (R58, R81). -/
theorem runCommand_finish (w : Byte) (s : State) : ∃ o, runCommand w s = .next (s.finish o) := by
  unfold runCommand
  split
  · exact exec_finish _ _
  · exact ⟨.error .illegalCommand, rfl⟩

theorem runCommand_ok {w : Byte} {i : Instr} (h : decode w = .ok i) (s : State) : runCommand w s = exec i s := by
  simp [runCommand, h]

theorem runCommand_error {w : Byte} {e : DecodeError} (h : decode w = .error e) (s : State) :
    runCommand w s = .next (s.fail .illegalCommand) := by
  simp [runCommand, h]

/-- What a completion keeps, whatever it reports. -/
theorem finish_kept (s : State) (o : Except Failure Effect) :
    (s.finish o).vin = s.vin ∧ (s.finish o).ilen = s.ilen ∧ (s.finish o).ib = s.ib ∧ (s.finish o).stream = s.stream ∧
      (s.finish o).pending = s.pending ∧ (s.finish o).replies = s.replies := by
  cases o <;> exact ⟨rfl, rfl, rfl, rfl, rfl, rfl⟩

/-- The register numbers are exactly 0 to 16 (R6, R22). -/
theorem ofNumber_eq_none {n : Nat} : Reg.ofNumber n = none ↔ 16 < n := by
  constructor
  · intro h
    by_contra hn
    have : n ≤ 16 := Nat.not_lt.1 hn
    interval_cases n <;> simp [Reg.ofNumber] at h
  · intro h
    match n, h with
    | n + 17, _ => rfl

theorem ofNumber_number (r : Reg) : Reg.ofNumber r.number = some r := by
  cases r with
  | ib i => fin_cases i <;> rfl
  | ob i => fin_cases i <;> rfl
  | _ => rfl

/-- Everything a write by the host can do (R29). -/
theorem hostWrite_cases (reg : Nat) (w : Word) (s : State) :
    (16 < reg ∧ hostWrite reg w s = .refused (.reservedRegister reg)) ∨
    (reg = 0 ∧ hostWrite reg w s = runCommand (commandByte w) s) ∨
    (∃ r, Reg.ofNumber reg = some r ∧ r ≠ .cmd ∧ hostWrite reg w s = .next (s.storeReg r w)) := by
  cases h : Reg.ofNumber reg with
  | none => exact .inl ⟨ofNumber_eq_none.1 h, by simp [hostWrite, h]⟩
  | some r =>
    by_cases hr : r = .cmd
    · subst hr
      refine .inr (.inl ⟨?_, by simp [hostWrite, h]⟩)
      have hle : reg ≤ 16 := by
        by_contra hn
        rw [ofNumber_eq_none.2 (by omega)] at h
        cases h
      interval_cases reg <;> simp [Reg.ofNumber] at h ⊢
    · refine .inr (.inr ⟨r, rfl, hr, ?_⟩)
      cases r <;> simp_all [hostWrite]

/-- Everything a read by the host can do (R30). -/
theorem hostRead_cases (reg : Nat) (s : State) :
    (16 < reg ∧ hostRead reg s = .refused (.reservedRegister reg)) ∨
    (∃ r, Reg.ofNumber reg = some r ∧ hostRead reg s = .next (s.answer r)) := by
  cases h : Reg.ofNumber reg with
  | none => exact .inl ⟨ofNumber_eq_none.1 h, by simp [hostRead, h]⟩
  | some r => exact .inr ⟨r, rfl, by simp [hostRead, h]⟩

/-- Everything a step that goes on can do: nothing where the host has made no move, else a command's completion, a store, an
answer, a reset, a change of the stream, or a fetch from it. -/
theorem step_cases {s t : State} (h : step s = .next t) :
    (s.pending = [] ∧ t = s) ∨
    ∃ move rest, s.pending = move :: rest ∧
      ((∃ w, move = .write 0 w ∧ ∃ o, t = ({ s with pending := rest } : State).finish o) ∨
       (∃ reg w r, move = .write reg w ∧ Reg.ofNumber reg = some r ∧ r ≠ .cmd ∧
         t = ({ s with pending := rest } : State).storeReg r w) ∨
       (∃ reg r, move = .read reg ∧ Reg.ofNumber reg = some r ∧ t = ({ s with pending := rest } : State).answer r) ∨
       (move = .reset ∧ t = ({ s with pending := rest } : State).resetCore) ∨
       (∃ bytes m, move = .attach bytes ∧ streamOf bytes = some m ∧ t = { s with pending := rest, stream := m }) ∨
       (∃ p b m, move = .poke p b ∧ pokeByte s.stream p b = some m ∧ t = { s with pending := rest, stream := m }) ∨
       (∃ p b, move = .fetch p ∧ memRead s.stream p = .ok b ∧
         t = { s with pending := rest, replies := s.replies ++ [b.setWidth 32] })) := by
  cases hp : s.pending with
  | nil =>
    exact .inl ⟨rfl, by simpa [step, nextMove, hp] using h.symm⟩
  | cons move rest =>
    have hs : serve move { s with pending := rest } = .next t := by simpa [step, nextMove, hp] using h
    refine .inr ⟨move, rest, rfl, ?_⟩
    cases move with
    | write reg w =>
      rcases hostWrite_cases reg w { s with pending := rest } with ⟨-, hw⟩ | ⟨rfl, hw⟩ | ⟨r, hr, hc, hw⟩
      · cases hs.symm.trans hw
      · obtain ⟨o, ho⟩ := runCommand_finish (commandByte w) { s with pending := rest }
        cases hs.symm.trans (hw.trans ho)
        exact .inl ⟨w, rfl, o, rfl⟩
      · cases hs.symm.trans hw
        exact .inr (.inl ⟨reg, w, r, rfl, hr, hc, rfl⟩)
    | read reg =>
      rcases hostRead_cases reg { s with pending := rest } with ⟨-, hr⟩ | ⟨r, hr, hw⟩
      · cases hs.symm.trans hr
      · cases hs.symm.trans hw
        exact .inr (.inr (.inl ⟨reg, r, rfl, hr, rfl⟩))
    | reset =>
      cases hs
      exact .inr (.inr (.inr (.inl ⟨rfl, rfl⟩)))
    | attach bytes =>
      cases hm : streamOf bytes with
      | none => simp [serve, attachStream, hm] at hs
      | some m =>
        exact .inr (.inr (.inr (.inr (.inl ⟨bytes, m, rfl, hm, by simpa [serve, attachStream, hm] using hs.symm⟩))))
    | poke p b =>
      cases hm : pokeByte s.stream p b with
      | none => simp [serve, pokeStream, hm] at hs
      | some m =>
        exact .inr (.inr (.inr (.inr (.inr (.inl ⟨p, b, m, rfl, hm, by simpa [serve, pokeStream, hm] using hs.symm⟩)))))
    | fetch p =>
      cases hm : memRead s.stream p with
      | error f => simp [serve, fetchStream, hm] at hs
      | ok b =>
        exact .inr (.inr (.inr (.inr (.inr (.inr ⟨p, b, rfl, hm, by simpa [serve, fetchStream, hm] using hs.symm⟩)))))

end Sys2Proof.Machine
end

