-- ==== Sys2Proof/Laws/Claims.lean ====
section
/-! SUPPORT. The small lemmas of the terms the claims are stated in. -/

namespace Sys2Proof.Machine

theorem obAt_of_ob {s t : State} (h : t.ob = s.ob) (i : Nat) : t.obAt i = s.obAt i := by simp [State.obAt, h]

theorem ibAt_of_ib {s t : State} (h : t.ib = s.ib) (i : Nat) : t.ibAt i = s.ibAt i := by simp [State.ibAt, h]

/-- A register file of UNSPEC cells reads UNSPEC everywhere. -/
theorem obUnspec_of_ob {t : State} (h : t.ob = Results.unspec.ob) : t.obUnspec := by
  intro i hi
  simp only [State.obAt, h]
  interval_cases i <;> rfl

/-- `OB` after an encode of the bytes `l`. -/
theorem obAt_of_encode {t : State} {l : List Byte} (h : t.ob = (encodeResults l).ob) {i : Nat} (hi : i < 5) :
    t.obAt i = producedByte l i := by
  simp only [State.obAt, h]
  interval_cases i <;> rfl

/-- What every completion keeps, in the claims' terms. -/
theorem kept_finish (s : State) (o : Except Failure Effect) : s.kept (s.finish o) := by
  obtain ⟨h1, h2, h3, h4, h5, h6⟩ := finish_kept s o
  exact ⟨⟨h1, h2, h3⟩, ⟨by rw [h4], fun p => by rw [h4]⟩, h5, h6⟩

/-- The failure completion, in the claims' terms (R84). -/
theorem failedAs_fail (s : State) (f : Failure) : s.failedAs (s.fail f) f.status :=
  ⟨rfl, ⟨rfl, rfl, obUnspec_of_ob rfl⟩, rfl, kept_finish s (.error f)⟩

/-- A step serves the host's next move. -/
theorem step_pending {s : State} {move : HostMove} {rest : List HostMove} (h : s.pending = move :: rest) :
    step s = serve move { s with pending := rest } := by
  simp [step, nextMove, h]

theorem ib_getElem (s : State) {i : Nat} (h : i < 5) : s.ib[i] = s.ibAt i := by
  simp [State.ibAt, List.getD_eq_getElem?_getD, h]

theorem ob_getElem (s : State) {i : Nat} (h : i < 5) : s.ob[i] = s.obAt i := by
  simp [State.obAt, List.getD_eq_getElem?_getD, h]

/-- The slice's bytes are the first registers of `IB`. -/
theorem getD_slice (s : State) {n i : Nat} (hi : i < n) : (s.ib.toList.take n).getD i 0#8 = s.ibAt i := by
  simp [State.ibAt, List.getD_eq_getElem?_getD, hi]

/-- The probe's loop over bytes that are all continued: it goes on behind them. -/
theorem probeFrom_skip {m : Memory} {p0 : Nat} (c n more : Nat)
    (h : ∀ i, c ≤ i → i < c + n → ∃ b, memRead m (p0 + i) = .ok b ∧ contBit b = true) :
    probeFrom m p0 c (n + more) = probeFrom m p0 (c + n) more := by
  induction n generalizing c with
  | zero => simp
  | succ n ih =>
    obtain ⟨b, hb, hc⟩ := h c le_rfl (by omega)
    have : n + 1 + more = (n + more) + 1 := by omega
    rw [this]
    simp only [probeFrom, hb, hc, if_true]
    rw [ih (c + 1) (fun i h1 h2 => h i (by omega) (by omega))]
    congr 1
    omega

/-- The probe at a varint of `c` bytes (R72). -/
theorem probe_varint {m : Memory} {p c : Nat} {t : Nat → Byte} (h : varintAt m p c t) : probe m p = .ok (c, t (c - 1)) := by
  obtain ⟨h1, h5, hb, hc, hl⟩ := h
  obtain ⟨n, rfl⟩ : ∃ n, c = n + 1 := ⟨c - 1, by omega⟩
  have hskip := probeFrom_skip (m := m) (p0 := p) 0 n (4 - n) fun i _ hi => ⟨t i, hb i (by omega), hc i (by omega)⟩
  have h4 : n + (4 - n) = 4 := by omega
  have hr : memRead m (p + n) = .ok (t n) := hb n (by omega)
  have hl' : contBit (t n) = false := hl
  simp only [probe, Config.maxLen]
  rw [h4, Nat.zero_add] at hskip
  rw [hskip]
  cases 4 - n <;> simp [probeFrom, hr, hl']

/-- The probe at five bytes without a terminator (R72). -/
theorem probe_unterminated {m : Memory} {p : Nat} {t : Nat → Byte} (h : unterminatedAt m p t) : probe m p = .ok (5, t 4) := by
  have hskip := probeFrom_skip (m := m) (p0 := p) 0 4 0 fun i _ hi => ⟨t i, h.1 i (by omega), h.2 i (by omega)⟩
  have hr : memRead m (p + 4) = .ok (t 4) := h.1 4 (by decide)
  simp only [probe, Config.maxLen]
  rw [show (5 - 1 : Nat) = 4 + 0 from rfl, hskip]
  simp [probeFrom, hr]

/-- The probe where the stream ends inside (R72, R86). -/
theorem probe_endsInside {m : Memory} {p c : Nat} {t : Nat → Byte} (h : endsInside m p c t) :
    probe m p = .error .streamEnd := by
  obtain ⟨h5, hb, hc, hl⟩ := h
  have hskip := probeFrom_skip (m := m) (p0 := p) 0 c (4 - c) fun i _ hi => ⟨t i, hb i (by omega), hc i (by omega)⟩
  have h4 : c + (4 - c) = 4 := by omega
  rw [h4, Nat.zero_add] at hskip
  simp only [probe, Config.maxLen]
  rw [hskip]
  cases 4 - c <;> simp [probeFrom, memRead_end hl]

/-- The read phase at bytes that exist (R75). -/
theorem readn_bytesAt {m : Memory} {p c : Nat} {t : Nat → Byte} (h : bytesAt m p c t) :
    readn m p c = .ok ((List.range c).map t) :=
  readn_of_bytes m p c t h

end Sys2Proof.Machine
end

