-- ==== Sys2Proof/Laws/Codec.lean ====
section
/-! SUPPORT. The encoders' outputs: 1 to 5 bytes in wire form, and what `OB` holds after them. -/

namespace Sys2Proof.Machine

/-- A byte sequence in wire form (R46): the continuation bit is set in all bytes but the last. -/
def wireForm (l : List Byte) : Prop :=
  ∀ i < l.length, contBit (l.getD i 0#8) = decide (i + 1 < l.length)

theorem contBit_withCont (b : Byte) : contBit (withCont b) = true := by
  revert b; decide

theorem contBit_group (b : Byte) : contBit (b &&& 0x7F#8) = false := by
  revert b; decide

theorem groupOf_withCont (b : Byte) : groupOf (withCont b) = groupOf b := by
  revert b; decide

theorem wireForm_single {b : Byte} (h : contBit b = false) : wireForm [b] := by
  intro i hi
  obtain rfl : i = 0 := by simpa using hi
  simpa using h

theorem wireForm_cons {b : Byte} {l : List Byte} (hb : contBit b = true) (hl : wireForm l) (hne : l ≠ []) :
    wireForm (b :: l) := by
  have hpos : 0 < l.length := List.length_pos_iff.2 hne
  intro i hi
  cases i with
  | zero => simpa [hpos] using hb
  | succ i => simpa using hl i (by simpa using hi)

/-- ENCU's loop (R61 (a), (b)): 1 to `n` bytes in wire form, for a value of at most `7n` bits. -/
theorem encuLoop_wire (n : Nat) (v : Word) (h : v.toNat < 2 ^ (7 * (n + 1))) :
    wireForm (encuLoop (n + 1) v) ∧ 1 ≤ (encuLoop (n + 1) v).length ∧ (encuLoop (n + 1) v).length ≤ n + 1 := by
  induction n generalizing v with
  | zero =>
    have hz : v >>> 7 = 0#32 := by
      apply BitVec.eq_of_toNat_eq
      simp only [BitVec.toNat_ushiftRight, Nat.shiftRight_eq_div_pow, BitVec.toNat_ofNat]
      exact Nat.div_eq_of_lt (by simpa using h)
    simp only [encuLoop, hz, if_true, low7]
    exact ⟨wireForm_single (contBit_group _), by simp⟩
  | succ n ih =>
    unfold encuLoop
    split
    · exact ⟨wireForm_single (contBit_group _), by simp⟩
    · have hlt : (v >>> 7).toNat < 2 ^ (7 * (n + 1)) := by
        simp only [BitVec.toNat_ushiftRight, Nat.shiftRight_eq_div_pow]
        rw [Nat.div_lt_iff_lt_mul (by decide), ← Nat.pow_add]
        exact lt_of_lt_of_eq h (by congr 1)
      obtain ⟨h1, h2, h3⟩ := ih _ hlt
      refine ⟨wireForm_cons (contBit_withCont _) h1 (by intro e; simp [e] at h2), by simp, by simp; omega⟩

theorem encodeUnsigned_wire (b : Bool) (v : Word) :
    wireForm (encodeUnsigned b v) ∧ 1 ≤ (encodeUnsigned b v).length ∧ (encodeUnsigned b v).length ≤ 5 :=
  encuLoop_wire 4 _ (lt_of_lt_of_le (v + biasValue b).isLt (by decide))

/-- ENCS's two loops (R67 (a), (b)): 1 to `n + 1` bytes in wire form. -/
theorem encsNonneg_wire (n : Nat) (s : Int) :
    wireForm (encsNonneg n s) ∧ 1 ≤ (encsNonneg n s).length ∧ (encsNonneg n s).length ≤ n + 1 := by
  induction n generalizing s with
  | zero => exact ⟨wireForm_single (contBit_group _), by simp [encsNonneg]⟩
  | succ n ih =>
    unfold encsNonneg
    split
    · obtain ⟨h1, h2, h3⟩ := ih (s / 128)
      exact ⟨wireForm_cons (contBit_withCont _) h1 (by intro e; simp [e] at h2), by simp, by simp; omega⟩
    · exact ⟨wireForm_single (contBit_group _), by simp⟩

theorem encsNeg_wire (n : Nat) (s : Int) :
    wireForm (encsNeg n s) ∧ 1 ≤ (encsNeg n s).length ∧ (encsNeg n s).length ≤ n + 1 := by
  induction n generalizing s with
  | zero => exact ⟨wireForm_single (contBit_group _), by simp [encsNeg]⟩
  | succ n ih =>
    unfold encsNeg
    split
    · obtain ⟨h1, h2, h3⟩ := ih (s / 128)
      exact ⟨wireForm_cons (contBit_withCont _) h1 (by intro e; simp [e] at h2), by simp, by simp; omega⟩
    · exact ⟨wireForm_single (contBit_group _), by simp⟩

theorem encodeSigned_wire (v : Word) :
    wireForm (encodeSigned v) ∧ 1 ≤ (encodeSigned v).length ∧ (encodeSigned v).length ≤ 5 := by
  unfold encodeSigned
  split
  · exact encsNonneg_wire 4 _
  · exact encsNeg_wire 4 _

/-- `OB` and `RSIZE` after an encode of bytes in wire form (R14, R61 (b), R67 (b)). -/
theorem obWellFormed_of_wire {t : State} {l : List Byte} (hob : t.ob = (encodeResults l).ob) (hw : wireForm l) :
    t.obWellFormed l.length := by
  intro i hi
  have hget := obAt_of_encode hob hi
  have hin : ∀ h : i < l.length, t.obAt i = .known (l.getD i 0#8) := by
    intro h
    simp [hget, producedByte, List.getElem?_eq_getElem h, List.getD_eq_getElem?_getD]
  refine ⟨fun h => ⟨_, hin (by omega), by rw [hw i (by omega)]; simpa using h⟩, fun h => ⟨_, hin (by omega), ?_⟩, fun h => ?_⟩
  · rw [hw i (by omega)]
    simp [h]
  · simp [hget, producedByte, List.getElem?_eq_none h]

/-! ### what each command's effect can be, said once -/

/-- A decode from registers: `InvalidVarint`, or a value with `RSIZE = ILEN` in 1 to 5 and `POS` as it was (R63, R69). -/
theorem decuEffect_cases (b : Bool) (s : State) :
    decuEffect b s = .error .invalidVarint ∨
    ∃ v, 1 ≤ s.ilen.toNat ∧ s.ilen.toNat ≤ 5 ∧ decuEffect b s = .ok ⟨decodeResults v s.ilen.toNat, s.pos⟩ := by
  rcases slice_cases s with ⟨-, hs⟩ | ⟨h1, h5, hs, -⟩
  · exact .inl (by simp [decuEffect, hs])
  · unfold decuEffect decodeUnsigned
    rw [hs]
    by_cases hc : contBit (scan (s.ib.toList.take s.ilen.toNat)).last = true
    · exact .inl (by simp [hc])
    · exact .inr ⟨_, h1, h5, by simp [hc]; rfl⟩

theorem decsEffect_cases (s : State) :
    decsEffect s = .error .invalidVarint ∨
    ∃ v, 1 ≤ s.ilen.toNat ∧ s.ilen.toNat ≤ 5 ∧ decsEffect s = .ok ⟨decodeResults v s.ilen.toNat, s.pos⟩ := by
  rcases slice_cases s with ⟨-, hs⟩ | ⟨h1, h5, hs, -⟩
  · exact .inl (by simp [decsEffect, hs])
  · exact .inr ⟨_, h1, h5, by simp [decsEffect, hs]; rfl⟩

/-- The probes: a failure, or a count of 1 to 5 whose bytes all exist below `SLEN` (R72 to R74). -/
theorem probeUnsigned_cases (m : Memory) (p : Nat) :
    (∃ f, probeUnsigned m p = .error f) ∨
    ∃ c, 1 ≤ c ∧ c ≤ 5 ∧ p + c ≤ m.slen.val ∧ probeUnsigned m p = .ok c := by
  rcases probe_cases m p with ⟨n, last, h, h1, h5, -, hl, -⟩ | ⟨h, -⟩
  · have hlt : p + (n - 1) < m.slen.val := by
      rcases memRead_cases m (p + (n - 1)) with ⟨_, _, h'⟩ | ⟨h', -⟩
      · exact h'
      · cases h'.symm.trans hl
    by_cases hc : contBit last = true
    · exact .inl ⟨.invalidVarint, by simp [probeUnsigned, h, hc]⟩
    · exact .inr ⟨n, h1, h5, by omega, by simp [probeUnsigned, h, hc]⟩
  · exact .inl ⟨.streamEnd, by simp [probeUnsigned, h]⟩

theorem probeSigned_cases (m : Memory) (p : Nat) :
    (∃ f, probeSigned m p = .error f) ∨
    ∃ c, 1 ≤ c ∧ c ≤ 5 ∧ p + c ≤ m.slen.val ∧ probeSigned m p = .ok c := by
  rcases probe_cases m p with ⟨n, last, h, h1, h5, -, hl, -⟩ | ⟨h, -⟩
  · have hlt : p + (n - 1) < m.slen.val := by
      rcases memRead_cases m (p + (n - 1)) with ⟨_, _, h'⟩ | ⟨h', -⟩
      · exact h'
      · cases h'.symm.trans hl
    exact .inr ⟨n, h1, h5, by omega, by simp [probeSigned, h]⟩
  · exact .inl ⟨.streamEnd, by simp [probeSigned, h]⟩

/-- The read phase after a probe never fails (R75). -/
theorem readn_below {m : Memory} {p c : Nat} (h : p + c ≤ m.slen.val) :
    readn m p c = .ok ((List.range c).map fun i => cellsGet m.cells (p + i)) :=
  readn_of_bytes m p c _ fun i hi => memRead_below (by omega)

/-- A stream decode: its probe's failure, or a value with the probe's count and `POS` past the bytes (R75 to R77). -/
theorem streamEffect_cases (s : State) (value : List Byte → Word) {count : Except Failure Nat}
    (h : (∃ f, count = .error f) ∨ ∃ c, 1 ≤ c ∧ c ≤ 5 ∧ s.pos.toNat + c ≤ s.stream.slen.val ∧ count = .ok c) :
    (∃ f, count = .error f ∧ streamEffect s count value = .error f) ∨
    ∃ c v, 1 ≤ c ∧ c ≤ 5 ∧ s.pos.toNat + c ≤ s.stream.slen.val ∧ count = .ok c ∧
      streamEffect s count value = .ok ⟨decodeResults v c, BitVec.ofNat 32 (s.pos.toNat + c)⟩ := by
  rcases h with ⟨f, rfl⟩ | ⟨c, h1, h5, hs, rfl⟩
  · exact .inl ⟨f, rfl, rfl⟩
  · exact .inr ⟨c, _, h1, h5, hs, rfl, by simp [streamEffect, readn_below hs]; rfl⟩

end Sys2Proof.Machine
end

