-- ==== Sys2Proof/Laws/PerInstr.lean ====
section
/-! SUPPORT. Facts about every command as syntax, one lemma per constructor. -/

/-- The command word of a command is well formed, legal, and carries the command's operation and bias bit (R48, R49, R52). -/
def Sys2Proof.Laws.CommandFields.Statement (i : Sys2Proof.Instr) : Prop :=
  i.wf = true ∧ Sys2Proof.CommandWord.legal (Sys2Proof.encode i) = true ∧
    Sys2Proof.CommandWord.opc (Sys2Proof.encode i) = i.opc ∧ Sys2Proof.CommandWord.biasBit (Sys2Proof.encode i) = i.bias

namespace Sys2Proof.Laws.CommandFields

theorem encu (b : Bool) : Statement (.encu b) := by cases b <;> exact ⟨by decide, by decide, by decide, by decide⟩
theorem decu (b : Bool) : Statement (.decu b) := by cases b <;> exact ⟨by decide, by decide, by decide, by decide⟩
theorem encs : Statement .encs := ⟨by decide, by decide, by decide, by decide⟩
theorem decs : Statement .decs := ⟨by decide, by decide, by decide, by decide⟩
theorem peeku : Statement .peeku := ⟨by decide, by decide, by decide, by decide⟩
theorem peeks : Statement .peeks := ⟨by decide, by decide, by decide, by decide⟩
theorem dstru (b : Bool) : Statement (.dstru b) := by cases b <;> exact ⟨by decide, by decide, by decide, by decide⟩
theorem dstrs : Statement .dstrs := ⟨by decide, by decide, by decide, by decide⟩

end Sys2Proof.Laws.CommandFields
end

