-- ==== Sys2Proof/Laws/Values.lean ====
section
/-! SUPPORT. What the encoders' bytes are worth: their payloads, the sign bit of a signed encoding's last byte, and the fixed-width form. -/

namespace Sys2Proof.Machine
/-- The scan of a sequence in wire form consumes all of it (R61, R64 (b), R70 (b)). -/
theorem scan_wire {l : List Byte} (hw : wireForm l) (hne : l ≠ []) :
    scan l = ⟨payload l, l.length, l.getD (l.length - 1) 0#8⟩ := by
  have hpos : 0 < l.length := List.length_pos_iff.2 hne
  have h := scan_eq l (l.length - 1) (by omega) (fun i hi => by rw [hw i (by omega)]; simp; omega) (.inr (by omega))
  have e : l.length - 1 + 1 = l.length := by omega
  rwa [e, List.take_length] at h

/-- The group of a value's low 7 bits. -/
theorem groupOf_low7 (v : Word) : groupOf (low7 v) = v.toNat % 2 ^ 7 := by
  have : groupOf (low7 v) = (v.setWidth 7).toNat := by
    have h : low7 v &&& 0x7F#8 = (v.setWidth 7).setWidth 8 := by
      ext i hi
      simp only [low7, BitVec.getElem_and, BitVec.getElem_setWidth]
      interval_cases i <;> simp
    rw [groupOf, h]
    simp
    omega
  rw [this, BitVec.toNat_setWidth]

/-- The payload of ENCU's bytes is the value (R64 (a)). -/
theorem payload_encuLoop (n : Nat) (v : Word) (h : v.toNat < 2 ^ (7 * (n + 1))) : payload (encuLoop (n + 1) v) = v.toNat := by
  induction n generalizing v with
  | zero =>
    have hz : v >>> 7 = 0#32 := by
      apply BitVec.eq_of_toNat_eq
      simp only [BitVec.toNat_ushiftRight, Nat.shiftRight_eq_div_pow, BitVec.toNat_ofNat]
      exact Nat.div_eq_of_lt (by simpa using h)
    simp only [encuLoop, hz, if_true, payload, groupOf_low7]
    simpa using h
  | succ n ih =>
    have hs : (v >>> 7).toNat = v.toNat / 2 ^ 7 := by
      simp only [BitVec.toNat_ushiftRight, Nat.shiftRight_eq_div_pow]
    unfold encuLoop
    split
    · rename_i hz
      rw [hz] at hs
      simp only [payload, groupOf_low7]
      have : v.toNat / 2 ^ 7 = 0 := by simpa using hs.symm
      omega
    · have hlt : (v >>> 7).toNat < 2 ^ (7 * (n + 1)) := by
        rw [hs, Nat.div_lt_iff_lt_mul (by decide), ← Nat.pow_add]
        exact lt_of_lt_of_eq h (by congr 1)
      simp only [payload, groupOf_withCont, groupOf_low7, ih _ hlt, hs]
      omega

theorem low7Int_group (s : Int) : low7Int s &&& 0x7F#8 = low7Int s := by
  simp [low7Int, BitVec.and_assoc]

theorem groupOf_low7Int (s : Int) : (groupOf (low7Int s) : Int) = s % 128 := by
  have hb : ∀ b : Byte, groupOf (b &&& 0x7F#8) = b.toNat % 128 := by decide
  rw [low7Int, hb, BitVec.toNat_ofInt]
  omega

/-- Bit 6 of a final group is the sign of the 7 bits it holds. -/
theorem signBit_low7Int (s : Int) : signBit (low7Int s) = decide (64 ≤ s % 128) := by
  have hb : ∀ b : Byte, signBit (b &&& 0x7F#8) = decide (64 ≤ b.toNat % 128) := by decide
  rw [low7Int, hb, BitVec.toNat_ofInt]
  congr 1
  rw [eq_iff_iff]
  omega

theorem getD_last_cons {b : Byte} {l : List Byte} (h : 1 ≤ l.length) :
    (b :: l).getD ((b :: l).length - 1) 0#8 = l.getD (l.length - 1) 0#8 := by
  obtain ⟨n, hn⟩ : ∃ n, l.length = n + 1 := ⟨l.length - 1, by omega⟩
  simp [hn]

/-- ENCS's bytes of a non-negative value (R70): their payload is the value, and bit 6 of the last is clear. -/
theorem encsNonneg_value (n : Nat) (s : Int) (h0 : 0 ≤ s) (h : s < 64 * 128 ^ n) :
    (payload (encsNonneg n s) : Int) = s ∧
      signBit ((encsNonneg n s).getD ((encsNonneg n s).length - 1) 0#8) = false := by
  induction n generalizing s with
  | zero =>
    have := groupOf_low7Int s
    simp only [encsNonneg, payload, List.length_singleton, Nat.sub_self, List.getD_cons_zero, signBit_low7Int]
    simp only [Int.pow_zero] at h
    refine ⟨by push_cast; omega, by simp; omega⟩
  | succ n ih =>
    unfold encsNonneg
    have hg := groupOf_low7Int s
    split
    · have hlt : s / 128 < 64 * 128 ^ n := by
        rw [Int.pow_succ] at h
        omega
      obtain ⟨h1, h2⟩ := ih (s / 128) (by omega) hlt
      refine ⟨?_, by rw [getD_last_cons (encsNonneg_wire n _).2.1]; exact h2⟩
      simp only [payload, groupOf_withCont]
      push_cast
      omega
    · simp only [payload, List.length_singleton, Nat.sub_self, List.getD_cons_zero, signBit_low7Int]
      refine ⟨by push_cast; omega, by simp; omega⟩

/-- ENCS's bytes of a negative value (R70): their payload is the value plus `2^(7n)` for `n` bytes, and bit 6 of the last is set. -/
theorem encsNeg_value (n : Nat) (s : Int) (h0 : s < 0) (h : -(64 * 128 ^ n) ≤ s) :
    (payload (encsNeg n s) : Int) = s + 128 ^ (encsNeg n s).length ∧
      signBit ((encsNeg n s).getD ((encsNeg n s).length - 1) 0#8) = true := by
  induction n generalizing s with
  | zero =>
    have := groupOf_low7Int s
    simp only [encsNeg, payload, List.length_singleton, Nat.sub_self, List.getD_cons_zero, signBit_low7Int]
    simp only [Int.pow_zero] at h
    refine ⟨by push_cast; omega, by simp; omega⟩
  | succ n ih =>
    unfold encsNeg
    have hg := groupOf_low7Int s
    split
    · have hlt : -(64 * 128 ^ n) ≤ s / 128 := by
        rw [Int.pow_succ] at h
        omega
      obtain ⟨h1, h2⟩ := ih (s / 128) (by omega) hlt
      refine ⟨?_, by rw [getD_last_cons (encsNeg_wire n _).2.1]; exact h2⟩
      simp only [payload, groupOf_withCont, List.length_cons, Int.pow_succ]
      push_cast
      omega
    · simp only [payload, List.length_singleton, Nat.sub_self, List.getD_cons_zero, signBit_low7Int]
      refine ⟨by push_cast; omega, by simp; omega⟩

theorem toNat_groupWord (t : Nat → Byte) {k i : Nat} (h : i < k) : (groupWord t k i).toNat = groupOf (t i) := by
  have := groupOf_lt (t i)
  simp only [groupWord, h, if_true, groupOf, BitVec.toNat_setWidth] at *
  omega

/-- The payload of up to five bytes, in 32 bits, is the fixed-width form (R64 (d)). -/
theorem ofNat_payload_eq_wireWord (t : Nat → Byte) {c : Nat} (h : c ≤ 5) :
    BitVec.ofNat 32 (payload ((List.range c).map t)) = wireWord t c := by
  have hg : ∀ i, (groupWord t c i).toNat = if i < c then groupOf (t i) else 0 := by
    intro i
    by_cases hi : i < c
    · simp [hi, toNat_groupWord t hi]
    · simp [groupWord, hi]
  have h0 := groupOf_lt (t 0)
  have h1 := groupOf_lt (t 1)
  have h2 := groupOf_lt (t 2)
  have h3 := groupOf_lt (t 3)
  have h4 := groupOf_lt (t 4)
  have hor : ∀ a b n : Nat, a < 2 ^ n → a ||| b <<< n = a + b * 2 ^ n := by
    intro a b n ha
    rw [Nat.lor_comm, Nat.shiftLeft_eq, Nat.mul_comm, Nat.two_pow_add_eq_or_of_lt ha b |>.symm, Nat.add_comm]
  have key : ∀ g0 g1 g2 g3 g4 : Nat, g0 < 2 ^ 7 → g1 < 2 ^ 7 → g2 < 2 ^ 7 → g3 < 2 ^ 7 → g4 < 2 ^ 7 →
      (g0 + (g1 + (g2 + (g3 + (g4 + 0) * 2 ^ 7) * 2 ^ 7) * 2 ^ 7) * 2 ^ 7) % 2 ^ 32 =
      g0 ||| g1 <<< 7 % 2 ^ 32 ||| g2 <<< 14 % 2 ^ 32 ||| g3 <<< 21 % 2 ^ 32 ||| (g4 &&& 15) <<< 28 % 2 ^ 32 := by
    intro g0 g1 g2 g3 g4 a0 a1 a2 a3 a4
    have e4 : g4 &&& 15 = g4 % 2 ^ 4 := Nat.and_two_pow_sub_one_eq_mod g4 4
    have b1 : g1 <<< 7 % 2 ^ 32 = g1 <<< 7 := Nat.mod_eq_of_lt (by rw [Nat.shiftLeft_eq]; omega)
    have b2 : g2 <<< 14 % 2 ^ 32 = g2 <<< 14 := Nat.mod_eq_of_lt (by rw [Nat.shiftLeft_eq]; omega)
    have b3 : g3 <<< 21 % 2 ^ 32 = g3 <<< 21 := Nat.mod_eq_of_lt (by rw [Nat.shiftLeft_eq]; omega)
    have b4 : (g4 % 2 ^ 4) <<< 28 % 2 ^ 32 = (g4 % 2 ^ 4) <<< 28 := Nat.mod_eq_of_lt (by rw [Nat.shiftLeft_eq]; omega)
    rw [e4, b1, b2, b3, b4, hor _ _ 7 a0, hor _ _ 14 (by omega), hor _ _ 21 (by omega), hor _ _ 28 (by omega)]
    omega
  apply BitVec.eq_of_toNat_eq
  simp only [wireWord, BitVec.toNat_or, BitVec.toNat_shiftLeft, BitVec.toNat_and, BitVec.toNat_ofNat, hg]
  have hz : (0 : Nat) < 2 ^ 7 := by decide
  have m15 : 15 % 2 ^ 32 = 15 := by decide
  rw [m15]
  interval_cases c
  · exact key 0 0 0 0 0 hz hz hz hz hz
  · exact key (groupOf (t 0)) 0 0 0 0 h0 hz hz hz hz
  · exact key (groupOf (t 0)) (groupOf (t 1)) 0 0 0 h0 h1 hz hz hz
  · exact key (groupOf (t 0)) (groupOf (t 1)) (groupOf (t 2)) 0 0 h0 h1 h2 hz hz
  · exact key (groupOf (t 0)) (groupOf (t 1)) (groupOf (t 2)) (groupOf (t 3)) 0 h0 h1 h2 h3 hz
  · exact key (groupOf (t 0)) (groupOf (t 1)) (groupOf (t 2)) (groupOf (t 3)) (groupOf (t 4)) h0 h1 h2 h3 h4

end Sys2Proof.Machine
end

