-- ==== Sys2Proof/Tests/Slice0.lean ====
section
/-! SUPPORT. The model's own tests: smoke tests of the checks, decoding of the spec's words, the spec's vectors one step each, and a
witness for every statement with hypotheses. Expected results are from spec/95_test_vectors.md and the rules' worked examples. -/

namespace Sys2Proof.Tests

open Sys2Proof Sys2Proof.Machine

/-! ### helpers -/

/-- The state a step answers, if it goes on. -/
def after (o : Host.Outcome State Fault Refusal) : Option State :=
  match o with
  | .next t => some t
  | .fault _ => none
  | .refused _ => none

/-- The reset state with a value to encode. -/
def withVin (v : Word) : State := { State.reset with vin := v }

/-- The reset state with a slice of the given length; `IB` is given whole. -/
def withSlice (n : Word) (ib : Vector Byte 5) : State := { State.reset with ilen := n, ib := ib }

/-- The reset state with a stream attached, at a position. -/
def withStream (bytes : List Byte) (pos : Word) : State :=
  { State.reset with stream := (streamOf bytes).getD Memory.empty, pos := pos }

/-- `RVAL`, `RSIZE`, `STATUS` after a step. -/
def decoded (o : Host.Outcome State Fault Refusal) : Option (Status × Result 32 × Result 3 × Word) :=
  (after o).map fun t => (t.status, t.rval, t.rsize, t.pos)

/-- `STATUS`, `RSIZE`, `OB` after a step. -/
def encoded (o : Host.Outcome State Fault Refusal) : Option (Status × Result 3 × List (Result 8)) :=
  (after o).map fun t => (t.status, t.rsize, t.ob.toList)

/-! ### well-formedness: an ill-formed word for each check of R52 -/

theorem test_wf_refuses_reserved_bits : CommandWord.reservedZero 0x10#8 = false ∧ CommandWord.legal 0x10#8 = false := by decide
theorem test_wf_refuses_stray_bias : CommandWord.biasAllowed 0x0A#8 = false ∧ CommandWord.legal 0x0A#8 = false := by decide
theorem test_wf_accepts_a_bias : CommandWord.legal 0x0E#8 = true ∧ (Instr.dstru true).wf = true := by decide

/-! ### decoding: each constructor's word from R49, bit by bit `0000 B OPC` -/

theorem test_decode_encu : decode 0b00000000#8 = .ok (.encu false) ∧ decode 0b00001000#8 = .ok (.encu true) := by decide
theorem test_decode_decu : decode 0b00000001#8 = .ok (.decu false) ∧ decode 0b00001001#8 = .ok (.decu true) := by decide
theorem test_decode_encs : decode 0b00000010#8 = .ok .encs := by decide
theorem test_decode_decs : decode 0b00000011#8 = .ok .decs := by decide
theorem test_decode_peeku : decode 0b00000100#8 = .ok .peeku := by decide
theorem test_decode_peeks : decode 0b00000101#8 = .ok .peeks := by decide
theorem test_decode_dstru : decode 0b00000110#8 = .ok (.dstru false) ∧ decode 0b00001110#8 = .ok (.dstru true) := by decide
theorem test_decode_dstrs : decode 0b00000111#8 = .ok .dstrs := by decide
/-- Section 2.6: `0x0D` is PEEKS with `B = 1`, `0x16` a stream command with a reserved bit. -/
theorem test_decode_illegal :
    decode 0x0D#8 = .error (.biasNotAllowed 5#3) ∧ decode 0x16#8 = .error (.reservedBits 1#4) := by decide
/-- Section 2.6: a write of `0x102` is ENCS, bits 31:8 being ignored. -/
theorem test_decode_ignores_high_bits : decode (commandByte 0x00000102#32) = .ok .encs := by decide

/-! ### the commands, one step each -/

/-- S2 of section 1.1: 300 encodes as `AC 02`. -/
theorem test_encu_300 : encoded (exec (.encu false) (withVin 300#32)) =
    some (.ok, .known 2#3, [.known 0xAC#8, .known 0x02#8, .unspec, .unspec, .unspec]) := by decide
/-- Section 2.1: with bias `0xFFFFFFFF` wraps to the single byte `00`. -/
theorem test_encu_bias_wraps : encoded (exec (.encu true) (withVin 0xFFFFFFFF#32)) =
    some (.ok, .known 1#3, [.known 0x00#8, .unspec, .unspec, .unspec, .unspec]) := by decide
/-- Section 2.2: with bias wire value 0 is `0xFFFFFFFF`, and `00 80 80` reports the input length 3. -/
theorem test_decu_bias_wraps : decoded (exec (.decu true) (withSlice 3#32 #v[0x00#8, 0x80#8, 0x80#8, 0#8, 0#8])) =
    some (.ok, .known 0xFFFFFFFF#32, .known 3#3, 0#32) := by decide
/-- S8 of section 1.1: five bytes without a terminator. -/
theorem test_decu_no_terminator : decoded (exec (.decu false) (withSlice 5#32 #v[0x80#8, 0x80#8, 0x80#8, 0x80#8, 0x80#8])) =
    some (.invalidVarint, .unspec, .unspec, 0#32) := by decide
/-- S6 of section 1.1: 127 encodes as `FF 00`. -/
theorem test_encs_127 : encoded (exec .encs (withVin 127#32)) =
    some (.ok, .known 2#3, [.known 0xFF#8, .known 0x00#8, .unspec, .unspec, .unspec]) := by decide
/-- Section 2.3: `-2^31` encodes as `80 80 80 80 78`. -/
theorem test_encs_minimum : encoded (exec .encs (withVin 0x80000000#32)) =
    some (.ok, .known 5#3, [.known 0x80#8, .known 0x80#8, .known 0x80#8, .known 0x80#8, .known 0x78#8]) := by decide
/-- S5 of section 1.1, with the sign extension from bit 7 (90_conflicts.md C2). -/
theorem test_decs_minus_two : decoded (exec .decs (withSlice 1#32 #v[0x7E#8, 0x80#8, 0x01#8, 0#8, 0#8])) =
    some (.ok, .known 0xFFFFFFFE#32, .known 1#3, 0#32) := by decide
/-- Section 2.4: `FF` without a terminator is accepted as -1. -/
theorem test_decs_no_terminator : decoded (exec .decs (withSlice 1#32 #v[0xFF#8, 0#8, 0#8, 0#8, 0#8])) =
    some (.ok, .known 0xFFFFFFFF#32, .known 1#3, 0#32) := by decide
/-- Section 2.5: the probe leaves `POS`; a stream that ends inside a varint is `StreamEnd`. -/
theorem test_peeku : decoded (exec .peeku (withStream [0xAC#8, 0x02#8, 0x7E#8, 0xFF#8, 0x00#8] 3#32)) =
    some (.ok, .unspec, .known 2#3, 3#32) := by decide
theorem test_peeku_stream_end : decoded (exec .peeku (withStream [0xFF#8, 0xFF#8, 0xFF#8, 0xFF#8] 0#32)) =
    some (.streamEnd, .unspec, .unspec, 0#32) := by decide
/-- Section 2.5: PEEKS accepts five continuation bytes. -/
theorem test_peeks_no_terminator : decoded (exec .peeks (withStream [0x80#8, 0x80#8, 0x80#8, 0x80#8, 0x80#8, 0x01#8] 0#32)) =
    some (.ok, .unspec, .known 5#3, 0#32) := by decide
/-- Section 2.5: DSTRU with bias on `AC 02`, and its failure on five continuation bytes. -/
theorem test_dstru_bias : decoded (exec (.dstru true) (withStream [0xAC#8, 0x02#8, 0x7E#8] 0#32)) =
    some (.ok, .known 0x12B#32, .known 2#3, 2#32) := by decide
theorem test_dstru_no_terminator : decoded (exec (.dstru false) (withStream [0x80#8, 0x80#8, 0x80#8, 0x80#8, 0x80#8] 0#32)) =
    some (.invalidVarint, .unspec, .unspec, 0#32) := by decide
/-- Section 2.5: DSTRS on `7E` at position 2 is -2, and accepts five bytes `FF`. -/
theorem test_dstrs : decoded (exec .dstrs (withStream [0xAC#8, 0x02#8, 0x7E#8] 2#32)) =
    some (.ok, .known 0xFFFFFFFE#32, .known 1#3, 3#32) := by decide
theorem test_dstrs_no_terminator : decoded (exec .dstrs (withStream [0xFF#8, 0xFF#8, 0xFF#8, 0xFF#8, 0xFF#8] 0#32)) =
    some (.ok, .known 0xFFFFFFFF#32, .known 5#3, 5#32) := by decide

/-! ### host accesses and the table's words -/

/-- Section 2.7: `WR IB[0], 0x1AC` stores `0xAC`. -/
theorem test_write_truncates : (after (hostWrite 4 0x1AC#32 State.reset)).map (fun t => t.ib.toList) =
    some [0xAC#8, 0#8, 0#8, 0#8, 0#8] := by decide
/-- Section 2.7: `RD STATUS` after reset is 0; `RD CMD` is 0. -/
theorem test_read_status : (after (hostRead 1 State.reset)).map (fun t => t.replies) = some [0#32] := by decide
theorem test_read_cmd : (after (hostRead 0 (withVin 5#32))).map (fun t => t.replies) = some [0#32] := by decide
/-- P4 line 20: `WR CMD, 0x0A` completes `IllegalCommand`. -/
theorem test_write_illegal_command : decoded (hostWrite 0 0x0A#32 (withStream [0x80#8] 7#32)) =
    some (.illegalCommand, .unspec, .unspec, 7#32) := by decide
theorem test_table_word_runs_first : decodeTableWord 8 0x0E = some (.dstru true) ∧
    decoded (step (State.reset.withFetchWord 8 0x0E)) = some (.streamEnd, .unspec, .unspec, 0#32) := by decide
/-- P4 line 28: six bytes, of which five are held. -/
theorem test_slice_line : asmMoves (.slice [0x80#8, 0x80#8, 0x80#8, 0x80#8, 0x80#8, 0x01#8]) =
    [.write 3 6#32, .write 4 0x80#32, .write 5 0x80#32, .write 6 0x80#32, .write 7 0x80#32, .write 8 0x80#32] := by decide

/-- Lines of the programs P1, P3 and P4, a comment, and an assembly error (R55). -/
theorem test_asm_text :
    asmText "WR VIN, -1" = some [.write 2 0xFFFFFFFF#32] ∧ asmText "ENCU.B  # sentinel" = some [.write 0 0x08#32] ∧
    asmText "SLICE AC 02" = some [.write 3 2#32, .write 4 0xAC#32, .write 5 0x02#32] ∧ asmText "RD OB[4]" = some [.read 15] ∧
    asmText "WR CMD, 0x102" = some [.write 0 0x102#32] ∧ asmText "TELL" = some [.read 16] ∧ asmText "# note" = some [] ∧
    asmText "SEEK 4" = some [.write 16 4#32] ∧ asmText "ENCS.B" = none := by decide

/-! ### witnesses: states and operands that meet each statement's hypotheses -/

/-- The byte sequence a list gives, for the statements' `t : Nat → Byte`. -/
def seq (l : List Byte) (i : Nat) : Byte := l.getD i 0#8

/-- The stream of the witnesses: `AC 02 7E FF 00`. -/
def fields : List Byte := [0xAC#8, 0x02#8, 0x7E#8, 0xFF#8, 0x00#8]

/-- Five bytes without a terminator. -/
def unended : List Byte := [0x80#8, 0x80#8, 0x80#8, 0x80#8, 0x80#8]

theorem witness_StepRunsTheDecodedCommand :
    (queueCommand State.reset 0x01#32).pending = .write 0 0x01#32 :: [] ∧ decode (commandByte 0x01#32) = .ok (.decu false) ∧
    State.reset.pending = [] := by decide

theorem witness_IllegalWordCompletesIllegalCommand :
    decode 0x0A#8 = .error (.biasNotAllowed 2#3) ∧ decode 0xFF#8 = .error (.reservedBits 15#4) := by decide

/-- The longest slice, and one whose first byte ends it. -/
theorem witness_DecuDecodes :
    (let s := withSlice 5#32 #v[0xFF#8, 0xFF#8, 0xFF#8, 0xFF#8, 0x0F#8]
     s.ilen.toNat ≤ 5 ∧ 5 ≤ s.ilen.toNat ∧ (∀ i < 4, contBit (s.ibAt i) = true) ∧ contBit (s.ibAt (5 - 1)) = false) ∧
    (let s := withSlice 3#32 #v[0x00#8, 0x80#8, 0x80#8, 0#8, 0#8]
     s.ilen.toNat ≤ 5 ∧ 1 ≤ s.ilen.toNat ∧ contBit (s.ibAt (1 - 1)) = false) := by decide

/-- `continued` at both witnesses of the statement above. -/
theorem witness_continued :
    continued (withSlice 5#32 #v[0xFF#8, 0xFF#8, 0xFF#8, 0xFF#8, 0x0F#8]).ibAt 5 ∧
    continued (withSlice 3#32 #v[0x00#8, 0x80#8, 0x80#8, 0#8, 0#8]).ibAt 1 := by
  refine ⟨fun i hi => ?_, fun i hi => by omega⟩
  have h4 : i < 4 := by omega
  interval_cases i <;> decide

/-- The three failures of DECU, and DECS's two. -/
theorem witness_DecodesReject :
    (withSlice 0#32 #v[0#8, 0#8, 0#8, 0#8, 0#8]).ilen.toNat = 0 ∧
    5 < (withSlice 6#32 #v[0#8, 0#8, 0#8, 0#8, 0#8]).ilen.toNat ∧
    (let s := withSlice 1#32 #v[0x80#8, 0#8, 0#8, 0#8, 0#8]; ∀ i < s.ilen.toNat, contBit (s.ibAt i) = true) := by decide

/-- DECS at the end of a slice without a terminator. -/
theorem witness_DecsDecodes :
    let s := withSlice 2#32 #v[0x80#8, 0xC0#8, 0#8, 0#8, 0#8]
    s.ilen.toNat ≤ 5 ∧ continued s.ibAt 2 ∧ contBit (s.ibAt (2 - 1)) = true ∧ 2 = s.ilen.toNat := by
  refine ⟨by decide, fun i hi => ?_, by decide, by decide⟩
  obtain rfl : i = 0 := by omega
  decide

theorem witness_UnsignedRoundTrip : ∃ t, exec (.encu false) (withVin 300#32) = .next t ∧ t.rsize = .known 2#3 ∧
    (let u := withSlice 2#32 #v[0xAC#8, 0x02#8, 0#8, 0#8, 0#8]
     u.ilen = (2#3).setWidth 32 ∧ ∀ i < (2#3).toNat, t.obAt i = .known (u.ibAt i)) :=
  ⟨_, rfl, by decide, by decide⟩

theorem witness_SignedRoundTrip : ∃ t, exec .encs (withVin 127#32) = .next t ∧ t.rsize = .known 2#3 ∧
    (let u := withSlice 2#32 #v[0xFF#8, 0x00#8, 0#8, 0#8, 0#8]
     u.ilen = (2#3).setWidth 32 ∧ ∀ i < (2#3).toNat, t.obAt i = .known (u.ibAt i)) :=
  ⟨_, rfl, by decide, by decide⟩

/-- A longer slice than the encoding: `80 00` decodes to 0, which encodes as one byte. -/
theorem witness_EncodingIsShortest :
    (∃ r, exec (.decu false) (withSlice 2#32 #v[0x80#8, 0x00#8, 0#8, 0#8, 0#8]) = .next r ∧ r.status = .ok ∧
      r.rval = .known (withVin 0#32).vin) ∧
    (∃ r, exec .decs (withSlice 2#32 #v[0x80#8, 0x00#8, 0#8, 0#8, 0#8]) = .next r ∧ r.status = .ok ∧
      r.rval = .known (withVin 0#32).vin) :=
  ⟨⟨_, rfl, by decide, by decide⟩, _, rfl, by decide, by decide⟩

theorem witness_SignExtensionFillsFromBitSevenK : signBit 0x7E#8 = true ∧ signBit 0xBF#8 = false := by decide

theorem witness_AttachedStreamReadsAsItsBytes :
    ({ State.reset with pending := [.attach fields] } : State).pending = .attach fields :: [] ∧ fields.length < 2 ^ 32 := by decide

theorem witness_PokeChangesOneByte :
    (let s : State := { withStream fields 0#32 with pending := [.poke 4 0x07#8] }
     s.stream.wf = true ∧ s.pending = .poke 4 0x07#8 :: [] ∧ 4 < s.stream.slen.val) := by decide

theorem witness_FetchAnswersTheByte :
    (let s : State := { withStream fields 0#32 with pending := [.fetch 4] }
     s.pending = .fetch 4 :: [] ∧ 4 < s.stream.slen.val) := by decide

/-- A one-byte varint and a five-byte one. -/
theorem witness_varintAt :
    varintAt (withStream fields 2#32).stream (withStream fields 2#32).pos.toNat 1 (seq [0x7E#8]) ∧
    varintAt (withStream [0xFF#8, 0xFF#8, 0xFF#8, 0xFF#8, 0x0F#8] 0#32).stream 0 5 (seq [0xFF#8, 0xFF#8, 0xFF#8, 0xFF#8, 0x0F#8]) := by
  refine ⟨⟨by decide, by decide, fun i hi => ?_, fun i hi => by omega, by decide⟩, by decide, by decide, fun i hi => ?_, fun i hi => ?_, by decide⟩
  · obtain rfl : i = 0 := by omega
    rfl
  · interval_cases i <;> rfl
  · have h4 : i < 4 := by omega
    interval_cases i <;> decide

theorem witness_unterminatedAt :
    unterminatedAt (withStream unended 0#32).stream (withStream unended 0#32).pos.toNat (seq unended) :=
  ⟨fun i hi => by interval_cases i <;> rfl, by decide⟩

/-- The stream ends at `POS` itself, and after four bytes. -/
theorem witness_endsInside :
    endsInside (withStream fields 5#32).stream (withStream fields 5#32).pos.toNat 0 (seq []) ∧
    endsInside (withStream [0xFF#8, 0xFF#8, 0xFF#8, 0xFF#8] 0#32).stream 0 4 (seq [0xFF#8, 0xFF#8, 0xFF#8, 0xFF#8]) :=
  ⟨⟨by decide, fun i hi => absurd hi (Nat.not_lt_zero i), by decide, by decide⟩,
    by decide, fun i hi => by interval_cases i <;> rfl, by decide, by decide⟩

theorem witness_PeekAgreesWithStreamDecode :
    (Instr.peeku = .peeku ∧ ∃ b, Instr.dstru true = .dstru b) ∧ (Instr.peeks = .peeks ∧ Instr.dstrs = .dstrs) :=
  ⟨⟨rfl, true, rfl⟩, rfl, rfl⟩

theorem witness_RegisterDecodeEqualsStreamDecode :
    let s := withStream fields 0#32
    let v := withSlice 2#32 #v[0xAC#8, 0x02#8, 0#8, 0#8, 0#8]
    (∃ u, exec .peeku s = .next u ∧ u.status = .ok ∧ u.rsize = .known 2#3) ∧
    (∃ u, exec .peeks s = .next u ∧ u.status = .ok ∧ u.rsize = .known 2#3) ∧ v.ilen = (2#3).setWidth 32 ∧
    ∀ i < (2#3).toNat, memRead s.stream (s.pos.toNat + i) = .ok (v.ibAt i) :=
  ⟨⟨_, rfl, by decide, by decide⟩, ⟨_, rfl, by decide, by decide⟩, by decide, by decide⟩

theorem witness_UnsignedStreamRoundTrip : ∃ t, exec (.encu false) (withVin 300#32) = .next t ∧ t.rsize = .known 2#3 ∧
    ∀ i < (2#3).toNat, ∃ x, t.obAt i = .known x ∧ memRead (withStream fields 0#32).stream ((0#32).toNat + i) = .ok x := by
  refine ⟨_, rfl, by decide, fun i hi => ?_⟩
  have h2 : i < 2 := hi
  interval_cases i
  · exact ⟨0xAC#8, by decide, by decide⟩
  · exact ⟨0x02#8, by decide, by decide⟩

theorem witness_SignedStreamRoundTrip : ∃ t, exec .encs (withVin 127#32) = .next t ∧ t.rsize = .known 2#3 ∧
    ∀ i < (2#3).toNat, ∃ x, t.obAt i = .known x ∧ memRead (withStream fields 3#32).stream ((3#32).toNat + i) = .ok x := by
  refine ⟨_, rfl, by decide, fun i hi => ?_⟩
  have h2 : i < 2 := hi
  interval_cases i
  · exact ⟨0xFF#8, by decide, by decide⟩
  · exact ⟨0x00#8, by decide, by decide⟩

theorem witness_PositionsDoNotWrap :
    (∃ t, exec .dstrs (withStream fields 3#32) = .next t ∧ t.status = .ok) ∧
    (∃ t, exec (.dstru false) (withStream fields 3#32) = .next t ∧ t.status = .ok) ∧
    (withStream fields 0xFFFFFFFF#32).stream.slen.val ≤ (withStream fields 0xFFFFFFFF#32).pos.toNat :=
  ⟨⟨_, rfl, by decide⟩, ⟨_, rfl, by decide⟩, by decide⟩

/-- Each of the three ways `POS` changes. -/
theorem witness_PosChangesOnlyBySeekResetOrStreamDecode :
    (∃ t, step { withStream fields 3#32 with pending := [.write 16 1#32] } = .next t ∧ t.pos ≠ 3#32) ∧
    (∃ t, step { withStream fields 3#32 with pending := [.reset] } = .next t ∧ t.pos ≠ 3#32) ∧
    (∃ t, step { withStream fields 3#32 with pending := [.write 0 0x07#32] } = .next t ∧ t.pos ≠ 3#32) :=
  ⟨⟨_, rfl, by decide⟩, ⟨_, rfl, by decide⟩, _, rfl, by decide⟩

/-- Two streams that differ only behind the varint. -/
theorem witness_StreamCommandsReadNoFurtherThanTheVarint :
    let s := withStream [0xAC#8, 0x02#8, 0x7E#8] 0#32
    let u := withStream [0xAC#8, 0x02#8] 0#32
    u.pos = s.pos ∧ (∃ t, exec .peeku s = .next t) ∧ (∃ v, exec .peeku u = .next v) ∧
    ∀ j < 5, (∀ k < j, ∃ x, memRead s.stream (s.pos.toNat + k) = .ok x ∧ contBit x = true) →
      memRead u.stream (s.pos.toNat + j) = memRead s.stream (s.pos.toNat + j) := by
  refine ⟨rfl, ⟨_, rfl⟩, ⟨_, rfl⟩, fun j hj h => ?_⟩
  have hstop : ¬ 2 ≤ j := by
    intro h2
    obtain ⟨x, hx, hc⟩ := h 1 (by omega)
    have : (0x02#8 : Byte) = x := by
      have e : memRead (withStream [0xAC#8, 0x02#8, 0x7E#8] 0#32).stream 1 = .ok 0x02#8 := by decide
      exact Except.ok.inj (e.symm.trans hx)
    subst this
    exact absurd hc (by decide)
  have hj2 : j < 2 := by omega
  interval_cases j <;> decide

theorem witness_CommandsKeep : ∃ t, runCommand 0x01#8 (withSlice 0#32 #v[0#8, 0#8, 0#8, 0#8, 0#8]) = .next t ∧ t.status ≠ .ok :=
  ⟨_, rfl, by decide⟩

theorem witness_CommandsKeepPosUnlessStreamDecode :
    (∃ t, exec (.dstru false) (withStream unended 0#32) = .next t ∧ t.status ≠ .ok) ∧
    (∃ t, exec .peeku (withStream fields 0#32) = .next t ∧ Instr.peeku ≠ .dstrs ∧ ∀ b, Instr.peeku ≠ .dstru b) :=
  ⟨⟨_, rfl, by decide⟩, _, rfl, by decide, fun b h => by cases h⟩

/-- A failure, an encode, a decode and a peek. -/
theorem witness_UndefinedResultsBecomeUnspec :
    (∃ t, exec (.decu false) State.reset = .next t ∧ t.status ≠ .ok) ∧
    (∃ t, exec .encs State.reset = .next t ∧ t.status = .ok) ∧
    (∃ t, exec .dstrs (withStream fields 0#32) = .next t ∧ t.status = .ok) ∧
    (∃ t, exec .peeks (withStream fields 0#32) = .next t ∧ t.status = .ok) :=
  ⟨⟨_, rfl, by decide⟩, ⟨_, rfl, by decide⟩, ⟨_, rfl, by decide⟩, _, rfl, by decide⟩

theorem witness_EncodersNeverFail :
    (queueCommand State.reset 0x108#32).pending = .write 0 0x108#32 :: [] ∧ (0x108#32).toNat % 2 ^ 8 = 0x08 := by decide

theorem witness_FailuresHaveExactlyTheirCauses :
    (∃ t, exec .peeku (withStream unended 0#32) = .next t ∧ t.status = .invalidVarint) ∧
    (∃ t, exec .dstrs (withStream fields 5#32) = .next t ∧ t.status = .streamEnd) ∧
    (∃ t, runCommand 0x0F#8 State.reset = .next t ∧ t.status = .illegalCommand) :=
  ⟨⟨_, rfl, by decide⟩, ⟨_, rfl, by decide⟩, _, rfl, by decide⟩

/-- Two states alike but for `STATUS` and a result register. -/
theorem witness_CommandsDependOnOperandsOnly :
    let s := withStream fields 0#32
    let u : State := { s with status := .invalidVarint, rval := .known 7#32, draws := 9 }
    u.vin = s.vin ∧ u.ilen = s.ilen ∧ u.ib = s.ib ∧ u.pos = s.pos ∧ u.stream = s.stream ∧
    (∃ t, runCommand 0x06#8 s = .next t) ∧ ∃ v, runCommand 0x06#8 u = .next v :=
  ⟨rfl, rfl, rfl, rfl, rfl, ⟨_, rfl⟩, _, rfl⟩

/-- Two states alike but for `IB[2]`, outside a slice of two bytes. -/
theorem witness_BytesOutsideTheSliceDoNotMatter :
    let s := withSlice 2#32 #v[0xAC#8, 0x02#8, 0#8, 0#8, 0#8]
    let u := withSlice 2#32 #v[0xAC#8, 0x02#8, 0xFF#8, 0#8, 0#8]
    u.ilen = s.ilen ∧ (s.ilen.toNat ≤ 5 ∧ ∀ j < s.ilen.toNat, u.ibAt j = s.ibAt j) ∧
    (∃ t, exec .decs s = .next t) ∧ ∃ v, exec .decs u = .next v :=
  ⟨rfl, by decide, ⟨_, rfl⟩, _, rfl⟩

/-- Every clause's register number: the lowest and the highest read-only one and the first reserved one among them. -/
theorem witness_HostWriteDoesWhatItsRegisterSays :
    ∀ reg ∈ [0, 1, 2, 3, 4, 8, 9, 15, 16, 17],
      ({ State.reset with pending := [.write reg 0#32] } : State).pending = .write reg 0#32 :: [] := by decide

theorem witness_HostReadAnswersTheRegister :
    ∀ reg ∈ [0, 1, 2, 3, 4, 8, 9, 10, 11, 15, 16, 17],
      ({ State.reset with pending := [.read reg] } : State).pending = .read reg :: [] := by decide

/-- A known result register in each of the read statement's clauses about one. -/
theorem witness_HostReadAnswersAKnownResult :
    (∃ t, exec (.decu false) (withSlice 1#32 #v[5#8, 0#8, 0#8, 0#8, 0#8]) = .next t ∧ t.rval = .known 5#32 ∧ t.rsize = .known 1#3) ∧
    (∃ t, exec (.encu false) (withVin 300#32) = .next t ∧ t.obAt 1 = .known 0x02#8) :=
  ⟨⟨_, rfl, by decide, by decide⟩, _, rfl, by decide⟩

theorem witness_SliceLineLoadsTheOperand : [0xAC#8, 0x02#8].length < 2 ^ 32 := by decide

theorem witness_ResetSetsEveryRegister :
    ({ withStream fields 3#32 with pending := [.reset] } : State).pending = .reset :: [] := by decide

theorem witness_DecodeRightAfterResetFails :
    let s : State := { withStream fields 3#32 with pending := [.reset] }
    s.pending = .reset :: [] ∧ ∃ t, step s = .next t ∧ ∃ u, exec .decs t = .next u :=
  ⟨rfl, _, rfl, _, rfl⟩

/-- A state other than reset that meets the invariant: after an ENCU of 300, with a command still to come. -/
theorem witness_EveryStepKeepsTheInvariant :
    ∃ s t, (queueCommand (withVin 300#32) 0x00#32).pending = .write 0 0x00#32 :: [] ∧
      step (queueCommand (withVin 300#32) 0x00#32) = .next s ∧ s.Inv ∧ s.status = .ok ∧ step s = .next t := by
  refine ⟨_, _, rfl, rfl, ⟨by decide, fun h => absurd rfl h, fun _ => ⟨2, by decide, by decide, by decide, .inr ⟨rfl, ?_⟩⟩⟩, rfl, rfl⟩
  exact obWellFormed_of_wire (l := [0xAC#8, 0x02#8]) (by decide) (by unfold wireForm; decide)

end Sys2Proof.Tests
end

/-! PROOFS. The state family (10_state.md): what a command word leaves unchanged. -/

namespace Sys2Proof.Machine

/-- Settles O33: every command word ends in a completion (`runCommand_finish`), and no completion, `OK` or failed, writes an
operand register, the stream or the host's own fields (`kept_finish`; R18, R34). -/
theorem commandsKeepOperandsAndStream : Obligations.CommandsKeepOperandsAndStream := by
  unfold Obligations.CommandsKeepOperandsAndStream
  intro w s t hrun
  obtain ⟨o, hfinish⟩ := runCommand_finish w s
  have ht : s.finish o = t := Host.Outcome.next.inj (hfinish.symm.trans hrun)
  exact ht ▸ kept_finish s o

end Sys2Proof.Machine

/-! PROOFS. The memory family (20_memory.md): host accesses to the registers, an attached stream, and position arithmetic. -/

namespace Sys2Proof.Machine

/-! ### host accesses, by register -/

theorem hostWrite_number {r : Reg} (hr : r ≠ .cmd) (w : Word) (s : State) :
    hostWrite r.number w s = .next (s.storeReg r w) := by
  unfold hostWrite
  rw [ofNumber_number]
  cases r
  case cmd => exact absurd rfl hr
  all_goals rfl

theorem hostWrite_reserved {reg : Nat} (h : 16 < reg) (w : Word) (s : State) :
    hostWrite reg w s = .refused (.reservedRegister reg) := by
  simp [hostWrite, ofNumber_eq_none.2 h]

theorem hostRead_reserved {reg : Nat} (h : 16 < reg) (s : State) :
    hostRead reg s = .refused (.reservedRegister reg) := by
  simp [hostRead, ofNumber_eq_none.2 h]

/-- The read-only registers, by number: a store to one is ignored (R20). -/
theorem readOnly_number {reg : Nat} (h : reg = 1 ∨ (9 ≤ reg ∧ reg ≤ 15)) :
    ∃ r : Reg, reg = r.number ∧ r ≠ .cmd ∧ ∀ s w, State.storeReg s r w = s := by
  rcases h with rfl | ⟨h9, h15⟩
  · exact ⟨.status, rfl, by decide, fun _ _ => rfl⟩
  obtain rfl | rfl | h11 : reg = 9 ∨ reg = 10 ∨ 11 ≤ reg := by omega
  · exact ⟨.rval, rfl, by decide, fun _ _ => rfl⟩
  · exact ⟨.rsize, rfl, by decide, fun _ _ => rfl⟩
  · exact ⟨.ob ⟨reg - 11, by omega⟩, by simp only [Reg.number]; omega, by simp, fun _ _ => rfl⟩

/-- Settles O42: the step serves the write, and each clause names its register by number, so that the store of that register
(`hostWrite_number`), the command or the refusal is what the step answers. -/
theorem hostWriteDoesWhatItsRegisterSays : Obligations.HostWriteDoesWhatItsRegisterSays := by
  unfold Obligations.HostWriteDoesWhatItsRegisterSays
  intro s reg w rest hp
  have hstep : step s = hostWrite reg w { s with pending := rest } := step_pending hp
  rw [hstep]
  refine ⟨?cmd, ?vin, ?ilen, ?ib, ?pos, ?readOnly, fun h => hostWrite_reserved h w _⟩
  case cmd => rintro rfl; rfl
  case vin => rintro rfl; exact hostWrite_number (r := .vin) (by decide) w _
  case ilen => rintro rfl; exact hostWrite_number (r := .ilen) (by decide) w _
  case ib => rintro i rfl; exact hostWrite_number (r := .ib i) (by simp) w _
  case pos => rintro rfl; exact hostWrite_number (r := .pos) (by decide) w _
  case readOnly =>
    intro h
    obtain ⟨r, rfl, hcmd, hstore⟩ := readOnly_number h
    rw [hostWrite_number hcmd, hstore]

/-- A result register of at most 32 bits, read as a word: a value of its range, UNSPEC or not, and the defined one where there is
one (R19, R30). -/
theorem toNat_value_setWidth {n : Nat} (hn : n ≤ 32) (r : Result n) (free : BitVec n) :
    ((r.value free).setWidth 32).toNat < 2 ^ n ∧
      ∀ v, r = .known v → ((r.value free).setWidth 32).toNat = v.toNat := by
  rw [BitVec.toNat_setWidth_of_le hn]
  refine ⟨BitVec.isLt _, ?_⟩
  rintro v rfl
  rfl

/-- Settles O43: the answer is the value of the register with that number (`hostRead_cases`), and the answer changes only
`replies` and `draws`; a result register's value is in its range whatever free value stands behind an UNSPEC. -/
theorem hostReadAnswersTheRegister : Obligations.HostReadAnswersTheRegister := by
  unfold Obligations.HostReadAnswersTheRegister
  intro s reg rest hp
  have hstep : step s = hostRead reg { s with pending := rest } := step_pending hp
  refine ⟨fun hreg => ?_, fun h => hstep.trans (hostRead_reserved h _)⟩
  rcases hostRead_cases reg { s with pending := rest } with ⟨h, -⟩ | ⟨r, hr, hread⟩
  · omega
  have hvalue : ∀ r' : Reg, reg = r'.number →
      State.regValue { s with pending := rest } r = State.regValue { s with pending := rest } r' := by
    rintro r' rfl
    rw [Option.some.inj (hr.symm.trans (ofNumber_number r'))]
  refine ⟨_, _, hstep.trans hread, rfl, rfl, rfl, ⟨rfl, rfl, rfl⟩, rfl, rfl, rfl, rfl, ⟨rfl, fun _ => rfl⟩,
    hvalue .cmd, ?status, hvalue .vin, hvalue .ilen, ?ib, ?rval, ?rsize, ?ob, hvalue .pos⟩
  case status =>
    intro h
    rw [hvalue .status h]
    exact BitVec.toNat_setWidth_of_le (by decide)
  case ib =>
    intro i hi h
    rw [hvalue (.ib ⟨i, hi⟩) h, ← ib_getElem s hi]
    exact BitVec.toNat_setWidth_of_le (by decide)
  case rval =>
    intro h v hv
    rw [hvalue .rval h]
    simp [State.regValue, hv]
  case rsize =>
    intro h
    rw [hvalue .rsize h]
    exact toNat_value_setWidth (by decide) s.rsize _
  case ob =>
    intro i hi h
    rw [hvalue (.ob ⟨i, hi⟩) h, ← ob_getElem s hi]
    exact toNat_value_setWidth (by decide) s.ob[i] _

/-! ### an attached stream -/

/-- Every sequence of at most `2^32 - 1` bytes is a stream (R31). -/
theorem streamOf_of_lt {bytes : List Byte} (h : bytes.length < 2 ^ 32) : ∃ m, streamOf bytes = some m :=
  ⟨_, dif_pos h⟩

/-- Settles O18: bytes shorter than `2^32` make a stream (`streamOf_of_lt`), the step puts it in place, and what it reads as is
`streamOf_some`. -/
theorem attachedStreamReadsAsItsBytes : Obligations.AttachedStreamReadsAsItsBytes := by
  unfold Obligations.AttachedStreamReadsAsItsBytes
  intro s bytes rest hp hlen
  obtain ⟨m, hm⟩ := streamOf_of_lt hlen
  obtain ⟨hslen, hwf, hread⟩ := streamOf_some hm
  have hstep : step s = .next { s with pending := rest, stream := m } := by
    simp [step_pending hp, serve, attachStream, hm]
  refine ⟨m, hstep, hslen, hwf, fun p => ?_⟩
  rw [hread p]
  by_cases hlt : p < bytes.length
  · simp [hlt]
  · simp [hlt]

/-! ### positions -/

theorem Failure.status_ne_ok (f : Failure) : f.status ≠ .ok := by
  cases f <;> decide

/-- A probe from a position at or above `SLEN` reads no byte (R33, R72). -/
theorem probe_end {m : Memory} {p : Nat} (h : m.slen.val ≤ p) : probe m p = .error .streamEnd :=
  probe_endsInside (c := 0) (t := fun _ => 0#8)
    ⟨by decide, fun _ hi => absurd hi (Nat.not_lt_zero _), fun _ hi => absurd hi (Nat.not_lt_zero _), h⟩

theorem probeUnsigned_end {m : Memory} {p : Nat} (h : m.slen.val ≤ p) : probeUnsigned m p = .error .streamEnd := by
  simp [probeUnsigned, probe_end h]

theorem probeSigned_end {m : Memory} {p : Nat} (h : m.slen.val ≤ p) : probeSigned m p = .error .streamEnd := by
  simp [probeSigned, probe_end h]

/-- Every stream command started at or above `SLEN` fails `StreamEnd` (R33, R39). -/
theorem exec_stream_end {i : Instr} {s : State} (hi : i = .peeku ∨ i = .peeks ∨ i = .dstrs ∨ ∃ b, i = .dstru b)
    (h : s.stream.slen.val ≤ s.pos.toNat) : exec i s = .next (s.fail .streamEnd) := by
  rcases hi with rfl | rfl | rfl | ⟨b, rfl⟩
  · simp [exec, execPeeku, probeUnsigned_end h, peekEffect]
  · simp [exec, execPeeks, probeSigned_end h, peekEffect]
  · simp [exec, execDstrs, probeSigned_end h, streamEffect]
  · simp [exec, execDstru, probeUnsigned_end h, streamEffect]

/-- DSTRU and DSTRS complete with a stream effect whose probe's count is 1 to 5 bytes that all exist, or failed (R75 to R77). -/
theorem exec_streamDecode {i : Instr} (hi : i = .dstrs ∨ ∃ b, i = .dstru b) (s : State) :
    ∃ count value, exec i s = .next (s.finish (streamEffect s count value)) ∧
      ((∃ f, count = .error f) ∨
        ∃ c, 1 ≤ c ∧ c ≤ 5 ∧ s.pos.toNat + c ≤ s.stream.slen.val ∧ count = .ok c) := by
  rcases hi with rfl | ⟨b, rfl⟩
  · exact ⟨_, _, rfl, probeSigned_cases s.stream s.pos.toNat⟩
  · exact ⟨_, _, rfl, probeUnsigned_cases s.stream s.pos.toNat⟩

/-- Settles O30: a stream decode that completes `OK` consumed bytes below `SLEN` (`streamEffect_cases`), and `SLEN < 2^32`, so the
sum does not wrap; from `SLEN` on every probe fails at its first byte (`exec_stream_end`). -/
theorem positionsDoNotWrap : Obligations.PositionsDoNotWrap := by
  unfold Obligations.PositionsDoNotWrap
  refine ⟨fun s t i hi hexec hok => ?_, fun s i hi hend => ⟨_, exec_stream_end hi hend, failedAs_fail s .streamEnd⟩⟩
  obtain ⟨count, value, hfinish, hcount⟩ := exec_streamDecode hi s
  obtain rfl : s.finish (streamEffect s count value) = t := Host.Outcome.next.inj (hfinish.symm.trans hexec)
  rcases streamEffect_cases s value hcount with ⟨f, -, hf⟩ | ⟨c, v, -, h5, hle, -, heff⟩
  · rw [hf] at hok
    exact absurd hok f.status_ne_ok
  · rw [heff]
    have hslen := s.stream.slen.isLt
    have hpos : (BitVec.ofNat 32 (s.pos.toNat + c)).toNat = s.pos.toNat + c := Nat.mod_eq_of_lt (by omega)
    have hsize : (BitVec.ofNat 3 c).toNat = c := Nat.mod_eq_of_lt (by omega)
    refine ⟨_, rfl, ?_, ?_⟩
    · rw [hsize]
      exact hpos
    · exact hpos.trans_le hle

end Sys2Proof.Machine

/-! PROOFS. The encoding family (30_encoding.md): the command word's fields, the decoder against the encoder, and illegal words. -/

namespace Sys2Proof

/-! ### the fields of a command word -/

/-- A command word is its three fields (R48). -/
theorem CommandWord.fields_append (w : Byte) : reserved w ++ BitVec.ofBool (biasBit w) ++ opc w = w := by
  revert w
  decide

theorem CommandWord.toNat_opc (w : Byte) : (opc w).toNat = w.toNat % 8 := by
  simp [opc, BitVec.extractLsb'_toNat]

/-- The operations without a bias argument, by number (R50, R52). -/
theorem CommandWord.takesBias_eq_false {o : BitVec 3} : takesBias o = false ↔ o.toNat ∈ [2, 3, 4, 5, 7] := by
  revert o
  decide

theorem CommandWord.legal_iff {w : Byte} :
    legal w = true ↔ reserved w = 0#4 ∧ (biasBit w = true → takesBias (opc w) = true) := by
  cases h : biasBit w <;> simp [legal, reservedZero, biasAllowed, h]

/-- R52 in the spec's own words: a reserved bit is set, or `B` is set with an operation that has no bias argument. -/
theorem CommandWord.legal_eq_false {w : Byte} :
    legal w = false ↔ reserved w ≠ 0#4 ∨ (biasBit w = true ∧ w.toNat % 8 ∈ [2, 3, 4, 5, 7]) := by
  rw [← toNat_opc, ← takesBias_eq_false, ← Bool.not_eq_true, legal_iff, not_and_or, Classical.not_imp, Bool.not_eq_true]

/-! ### the operation a word names -/

theorem decodeOpc_opc_bias (i : Instr) : decodeOpc i.opc i.bias = i := by
  cases i <;> rfl

theorem opc_decodeOpc (o : BitVec 3) (b : Bool) : (decodeOpc o b).opc = o := by
  revert o b
  decide

/-- No bias bit is lost where `B` is allowed (R50). -/
theorem bias_decodeOpc {o : BitVec 3} {b : Bool} (h : b = true → CommandWord.takesBias o = true) :
    (decodeOpc o b).bias = b := by
  revert o b
  decide

/-! ### the decoder -/

theorem decode_of_legal {w : Byte} (h : CommandWord.legal w = true) :
    decode w = .ok (decodeOpc (CommandWord.opc w) (CommandWord.biasBit w)) := by
  obtain ⟨hres, hbias⟩ := Bool.and_eq_true_iff.1 h
  simp [decode, hres, hbias]

theorem decode_of_illegal {w : Byte} (h : CommandWord.legal w = false) : ∃ e, decode w = .error e := by
  unfold decode
  split
  next hres =>
    have hbias : ¬ CommandWord.biasAllowed w = true := by simpa [CommandWord.legal, hres] using h
    exact ⟨_, if_neg hbias⟩
  next => exact ⟨_, rfl⟩

/-- The decoder rejects exactly the illegal words (R52). -/
theorem decode_error_iff {w : Byte} : (∃ e, decode w = .error e) ↔ CommandWord.legal w = false := by
  refine ⟨fun ⟨e, he⟩ => ?_, decode_of_illegal⟩
  cases hlegal : CommandWord.legal w with
  | true => cases (decode_of_legal hlegal).symm.trans he
  | false => rfl

/-- The fields of every command's word (R48, R49, R52). -/
theorem commandFields (i : Instr) : Laws.CommandFields.Statement i := by
  cases i with
  | encu b => exact Laws.CommandFields.encu b
  | decu b => exact Laws.CommandFields.decu b
  | encs => exact Laws.CommandFields.encs
  | decs => exact Laws.CommandFields.decs
  | peeku => exact Laws.CommandFields.peeku
  | peeks => exact Laws.CommandFields.peeks
  | dstru b => exact Laws.CommandFields.dstru b
  | dstrs => exact Laws.CommandFields.dstrs

theorem decode_encode (i : Instr) : decode (encode i) = .ok i := by
  obtain ⟨-, hlegal, hopc, hbias⟩ := commandFields i
  rw [decode_of_legal hlegal, hopc, hbias, decodeOpc_opc_bias]

theorem encode_decodeOpc {w : Byte} (h : CommandWord.legal w = true) :
    encode (decodeOpc (CommandWord.opc w) (CommandWord.biasBit w)) = w := by
  obtain ⟨hres, hbias⟩ := CommandWord.legal_iff.1 h
  rw [encode, opc_decodeOpc, bias_decodeOpc hbias, ← hres, CommandWord.fields_append]

/-- A byte decodes to a command exactly when it is that command's word (R48, R49). -/
theorem decode_eq_ok_iff {w : Byte} {i : Instr} : decode w = .ok i ↔ w = encode i := by
  refine ⟨fun h => ?_, fun h => h ▸ decode_encode i⟩
  cases hlegal : CommandWord.legal w with
  | true =>
    obtain rfl := Except.ok.inj ((decode_of_legal hlegal).symm.trans h)
    exact (encode_decodeOpc hlegal).symm
  | false =>
    obtain ⟨e, he⟩ := decode_of_illegal hlegal
    cases he.symm.trans h

end Sys2Proof

namespace Sys2Proof.Machine

/-- Settles O4: the decoder rejects exactly the words that are not legal (`decode_error_iff`), which `CommandWord.legal_eq_false`
spells out as R52 does, and a rejected word runs as the failure `IllegalCommand` (`runCommand_error`, `failedAs_fail`; R84). -/
theorem illegalWordCompletesIllegalCommand : Obligations.IllegalWordCompletesIllegalCommand := by
  unfold Obligations.IllegalWordCompletesIllegalCommand
  intro w
  refine ⟨decode_error_iff.trans CommandWord.legal_eq_false, ?_⟩
  rintro ⟨e, he⟩ s
  exact ⟨_, runCommand_error he s, failedAs_fail s .illegalCommand⟩

/-- Settles O1: a byte decodes to `i` exactly when it is `encode i` (`decode_eq_ok_iff`), and the table of R49 lists under each
command, and bias where it has one, its own word and no other. -/
theorem elevenWordsAreTheCommands : Obligations.ElevenWordsAreTheCommands := by
  unfold Obligations.ElevenWordsAreTheCommands
  intro w i
  rw [decode_eq_ok_iff]
  cases i with
  | encu b | decu b | dstru b => cases b <;> simp [encode, Instr.opc, Instr.bias]
  | encs | decs | peeku | peeks | dstrs => simp [encode, Instr.opc, Instr.bias]

end Sys2Proof.Machine

/-! PROOFS. The unsigned codec (40_unsigned_codec.md): the closed form of ENCU's bytes, and what DECU makes of a slice. -/

namespace Sys2Proof.Machine

/-! ### the closed form of ENCU's bytes -/

theorem ushiftRight_seven_eq_zero {v : Word} : v >>> 7 = 0#32 ↔ v.toNat < 2 ^ 7 := by
  rw [← BitVec.toNat_inj, BitVec.toNat_ushiftRight, Nat.shiftRight_eq_div_pow]
  simp

/-- `usize` counts groups as ENCU's loop does: one, and those of the value shifted by 7 while that is not 0 (R60, R112). -/
theorem usize_eq_ite (v : Word) : usize v = if v >>> 7 = 0#32 then 1 else usize (v >>> 7) + 1 := by
  have hv := v.isLt
  have hs : (v >>> 7).toNat = v.toNat / 2 ^ 7 := by
    rw [BitVec.toNat_ushiftRight, Nat.shiftRight_eq_div_pow]
  simp only [ushiftRight_seven_eq_zero, usize, hs]
  split_ifs <;> omega

theorem one_le_usize (v : Word) : 1 ≤ usize v := by
  rw [usize_eq_ite]
  split_ifs <;> omega

theorem usize_le_five (v : Word) : usize v ≤ 5 := by
  unfold usize
  split_ifs <;> omega

/-- Where `n` passes are enough, ENCU's loop emits `usize v` bytes (R60). -/
theorem length_encuLoop {n : Nat} {v : Word} (h : usize v ≤ n) : (encuLoop n v).length = usize v := by
  induction n generalizing v with
  | zero => have := one_le_usize v; omega
  | succ n ih =>
    rw [usize_eq_ite] at h ⊢
    by_cases hz : v >>> 7 = 0#32
    · simp [encuLoop, hz]
    · rw [if_neg hz] at h
      simp [encuLoop, hz, ih (Nat.le_of_succ_le_succ h)]

/-- Byte `i` of an unsigned encoding: group `i` of the value, continued in all bytes but the last (R60). -/
def encuByte (v : Word) (i : Nat) : Byte :=
  if i + 1 < usize v then withCont (low7 (v >>> (7 * i))) else low7 (v >>> (7 * i))

theorem encuByte_succ {v : Word} (hz : v >>> 7 ≠ 0#32) (i : Nat) : encuByte v (i + 1) = encuByte (v >>> 7) i := by
  have hshift : v >>> (7 * (i + 1)) = v >>> 7 >>> (7 * i) := by
    rw [← BitVec.shiftRight_add, Nat.mul_succ, Nat.add_comm]
  rw [encuByte, encuByte, hshift, usize_eq_ite v, if_neg hz]
  simp only [Nat.add_lt_add_iff_right]

/-- ENCU's loop emits byte after byte of the encoding (R60). -/
theorem getElem?_encuLoop {n i : Nat} {v : Word} (h : usize v ≤ n) (hi : i < usize v) :
    (encuLoop n v)[i]? = some (encuByte v i) := by
  induction n generalizing v i with
  | zero => omega
  | succ n ih =>
    have hsize := usize_eq_ite v
    by_cases hz : v >>> 7 = 0#32
    · rw [if_pos hz] at hsize
      obtain rfl : i = 0 := by omega
      simp [encuLoop, hz, encuByte, hsize]
    · rw [if_neg hz] at hsize
      cases i with
      | zero =>
        have hmore : 1 < usize v := by have := one_le_usize (v >>> 7); omega
        simp [encuLoop, hz, encuByte, hmore]
      | succ i => simp [encuLoop, hz, encuByte_succ hz, ih (v := v >>> 7) (i := i) (by omega) (by omega)]

/-- The group `v[k+6 : k]` as R60 writes it. -/
theorem low7_ushiftRight (v : Word) (k : Nat) : low7 (v >>> k) = (v.extractLsb' k 7).setWidth 8 := by
  ext i hi
  simp only [low7, BitVec.getElem_and, BitVec.getElem_setWidth, BitVec.getLsbD_ushiftRight, BitVec.getLsbD_extractLsb']
  interval_cases i <;> simp

theorem encuByte_continued {v : Word} {i : Nat} (h : i + 1 < usize v) :
    encuByte v i = 0x80#8 ||| (v.extractLsb' (7 * i) 7).setWidth 8 := by
  rw [encuByte, if_pos h, withCont, BitVec.or_comm, low7_ushiftRight]

theorem encuByte_last (v : Word) : encuByte v (usize v - 1) = (v.extractLsb' (7 * usize v - 7) 7).setWidth 8 := by
  have hlast : ¬ usize v - 1 + 1 < usize v := by omega
  rw [encuByte, if_neg hlast, low7_ushiftRight, Nat.mul_sub_one]

theorem length_encodeUnsigned (b : Bool) (v : Word) : (encodeUnsigned b v).length = usize (v + biasValue b) :=
  length_encuLoop (usize_le_five _)

/-- Byte `i` of `encode_unsigned`, or UNSPEC from its length on (R14, R60). -/
theorem producedByte_encodeUnsigned (b : Bool) (v : Word) (i : Nat) :
    producedByte (encodeUnsigned b v) i =
      if i < usize (v + biasValue b) then .known (encuByte (v + biasValue b) i) else .unspec := by
  unfold producedByte
  by_cases hi : i < usize (v + biasValue b)
  · rw [if_pos hi, encodeUnsigned, getElem?_encuLoop (n := Config.maxLen) (usize_le_five _) hi]
  · rw [if_neg hi, List.getElem?_eq_none (by rw [length_encodeUnsigned]; omega)]

/-- Settles O6: ENCU's loop emits `usize w` bytes (`length_encuLoop`) and byte `i` of the closed form at place `i`
(`getElem?_encuLoop`), both by induction on the loop's bound, which five passes meet (`usize_le_five`). -/
theorem encuProducesTheGroups : Obligations.EncuProducesTheGroups := by
  unfold Obligations.EncuProducesTheGroups
  refine ⟨decode_encode (.encu false), decode_encode (.encu true), fun b s => ⟨_, rfl, ?_⟩⟩
  intro w n
  have h1 : 1 ≤ n := one_le_usize w
  have h5 : n ≤ 5 := usize_le_five w
  have hob : ∀ i < 5, State.obAt (s.finish (.ok ⟨encodeResults (encodeUnsigned b s.vin), s.pos⟩)) i =
      if i < n then .known (encuByte w i) else .unspec := fun i hi =>
    (obAt_of_encode rfl hi).trans (producedByte_encodeUnsigned b s.vin i)
  refine ⟨rfl, rfl, ?_, fun i hi => ?_, ?_, fun i hi hn => ?_, rfl, kept_finish s _⟩
  · rw [State.finish_ok_rsize, encodeResults_rsize, length_encodeUnsigned]
    rfl
  · rw [hob i (by omega), if_pos (by omega), encuByte_continued hi]
  · rw [hob (n - 1) (by omega), if_pos (by omega), encuByte_last]
  · rw [hob i hi, if_neg (by omega)]

/-! ### DECU on a slice -/

/-- The slice of a length of 1 to 5 is the first `ILEN` registers of `IB` (R10, R11). -/
theorem slice_eq_map_ibAt {s : State} (h1 : 1 ≤ s.ilen.toNat) (h5 : s.ilen.toNat ≤ 5) :
    s.slice = .ok ((List.range s.ilen.toNat).map s.ibAt) := by
  rcases slice_cases s with ⟨hbad, -⟩ | ⟨-, -, hs, hlen⟩
  · omega
  · rw [hs]
    congr 1
    refine List.ext_getElem (by simp [hlen]) fun i hi _ => ?_
    have hget := getD_slice s (n := s.ilen.toNat) (i := i) (by omega)
    rw [List.getD_eq_getElem _ _ hi] at hget
    simpa using hget

theorem slice_eq_error {s : State} (h : s.ilen.toNat = 0 ∨ 5 < s.ilen.toNat) : s.slice = .error .invalidVarint := by
  rcases slice_cases s with ⟨-, hs⟩ | ⟨h1, h5, -, -⟩
  · exact hs
  · omega

/-- The scan of the bytes `t 0 .. t (n-1)` (R62): `k` bytes are consumed where they are continued up to a terminator or the end. -/
theorem scan_map_range {t : Nat → Byte} {k n : Nat} (h1 : 1 ≤ k) (hk : k ≤ n) (hcont : continued t k)
    (hend : contBit (t (k - 1)) = false ∨ k = n) :
    scan ((List.range n).map t) = ⟨payload ((List.range k).map t), k, t (k - 1)⟩ := by
  have hget : ∀ i < n, ((List.range n).map t).getD i 0#8 = t i := fun i hi => by
    simp [List.getD_eq_getElem?_getD, hi]
  obtain ⟨j, rfl⟩ : ∃ j, k = j + 1 := ⟨k - 1, by omega⟩
  rw [scan_eq _ j (by simpa using hk) (fun i hi => by rw [hget i (by omega)]; exact hcont i (by omega))
    (by rw [hget j hk]; simpa using hend), hget j hk, ← List.map_take, List.take_range, Nat.min_eq_left hk]
  rfl

/-- `decode_unsigned` where the first terminator is byte `k - 1` (R63, R64 (d)). -/
theorem decodeUnsigned_of_terminator (b : Bool) {t : Nat → Byte} {k n : Nat} (h1 : 1 ≤ k) (hk : k ≤ n) (h5 : n ≤ 5)
    (hcont : continued t k) (hterm : contBit (t (k - 1)) = false) :
    decodeUnsigned b ((List.range n).map t) = .ok (wireWord t k - biasValue b) := by
  rw [decodeUnsigned, scan_map_range h1 hk hcont (.inl hterm), unsignedValue, ofNat_payload_eq_wireWord t (hk.trans h5)]
  simp [hterm]

/-- `decode_unsigned` where no byte is a terminator: the scan ends at the last byte, which is continued (R63). -/
theorem decodeUnsigned_of_no_terminator (b : Bool) {t : Nat → Byte} {n : Nat} (h1 : 1 ≤ n)
    (hcont : ∀ i < n, contBit (t i) = true) : decodeUnsigned b ((List.range n).map t) = .error .invalidVarint := by
  rw [decodeUnsigned, scan_map_range h1 le_rfl (fun i hi => hcont i (by omega)) (.inr rfl)]
  exact if_pos (hcont (n - 1) (by omega))

theorem decuEffect_of_terminator (b : Bool) {s : State} {k : Nat} (h5 : s.ilen.toNat ≤ 5) (h1 : 1 ≤ k)
    (hk : k ≤ s.ilen.toNat) (hcont : continued s.ibAt k) (hterm : contBit (s.ibAt (k - 1)) = false) :
    decuEffect b s = .ok ⟨decodeResults (wireWord s.ibAt k - biasValue b) s.ilen.toNat, s.pos⟩ := by
  simp [decuEffect, slice_eq_map_ibAt (h1.trans hk) h5, decodeUnsigned_of_terminator b h1 hk h5 hcont hterm]

/-- DECU's three failures (R63, §7): no byte, too many, or no terminator among them. -/
theorem decuEffect_invalid (b : Bool) {s : State}
    (h : s.ilen.toNat = 0 ∨ 5 < s.ilen.toNat ∨ ∀ i < s.ilen.toNat, contBit (s.ibAt i) = true) :
    decuEffect b s = .error .invalidVarint := by
  by_cases hlen : s.ilen.toNat = 0 ∨ 5 < s.ilen.toNat
  · simp [decuEffect, slice_eq_error hlen]
  · obtain ⟨h0, h5⟩ := not_or.1 hlen
    have hcont : ∀ i < s.ilen.toNat, contBit (s.ibAt i) = true := (h.resolve_left h0).resolve_left h5
    have h1 : 1 ≤ s.ilen.toNat := Nat.pos_of_ne_zero h0
    simp [decuEffect, slice_eq_map_ibAt h1 (not_lt.1 h5), decodeUnsigned_of_no_terminator b h1 hcont]

theorem exec_decu (b : Bool) (s : State) : exec (.decu b) s = .next (s.finish (decuEffect b s)) := rfl

/-- Settles O8: the slice is the first `ILEN` registers of `IB` (`slice_eq_map_ibAt`), its scan ends at the first terminator or at
the last byte (`scan_map_range`), so DECU's effect is the value (`decuEffect_of_terminator`) or the failure
(`decuEffect_invalid`), and a completion keeps the rest (`kept_finish`, `failedAs_fail`). -/
theorem decuDecodesOrRejects : Obligations.DecuDecodesOrRejects := by
  unfold Obligations.DecuDecodesOrRejects
  refine ⟨decode_encode (.decu false), decode_encode (.decu true), fun b s k h5 h1 hk hcont hterm => ?_, fun b s h => ?_⟩
  · refine ⟨_, exec_decu b s, ?_⟩
    rw [decuEffect_of_terminator b h5 h1 hk hcont hterm]
    exact ⟨rfl, rfl, rfl, obUnspec_of_ob rfl, rfl, kept_finish s _⟩
  · refine ⟨_, exec_decu b s, ?_⟩
    rw [decuEffect_invalid b h]
    exact failedAs_fail s .invalidVarint

end Sys2Proof.Machine

/-! PROOFS. The signed codec (41_signed_codec.md): sign extension bit by bit, the closed form of ENCS's bytes, and what DECS makes
of a slice. -/

namespace Sys2Proof.Machine

/-! ### sign extension, bit by bit -/

/-- `a - 2^m` with `a < 2^m` is the complement of `2^m - 1 - a`: the bits of `a` below `m` and ones from there up. -/
theorem testBit_sub_two_pow {a m : Nat} (h : a < 2 ^ m) (j : Nat) :
    ((a : Int) - (2 ^ m : Nat)).testBit j = (decide (m ≤ j) || a.testBit j) := by
  have hneg : (a : Int) - (2 ^ m : Nat) = Int.negSucc (2 ^ m - (a + 1)) := by omega
  rw [hneg, Int.testBit, Nat.testBit_two_pow_sub_succ h, Bool.not_and, Bool.not_not, ← decide_not]
  simp only [not_lt]

theorem testBit_signExtend_negative {last : Byte} (h : signBit last = true) (acc k j : Nat) :
    (signExtend acc k last).testBit j = (decide (7 * k ≤ j) || acc.testBit j) := by
  rw [signExtend, if_pos h, testBit_sub_two_pow (Nat.mod_lt _ (Nat.two_pow_pos _)), Nat.testBit_mod_two_pow, Config.group]
  by_cases hj : 7 * k ≤ j
  · simp [hj]
  · simp [hj, not_le.1 hj]

theorem signExtend_nonnegative {last : Byte} (h : signBit last = false) (acc k : Nat) : signExtend acc k last = acc := by
  simp [signExtend, h]

/-- Settles O13: below zero the extended integer is `acc mod 2^(7k)` less `2^(7k)`, whose bits `testBit_sub_two_pow` reads off a
complement (`testBit_signExtend_negative`); with the sign bit clear it is the accumulator (`signExtend_nonnegative`). -/
theorem signExtensionFillsFromBitSevenK : Obligations.SignExtensionFillsFromBitSevenK := by
  unfold Obligations.SignExtensionFillsFromBitSevenK
  exact fun acc k last =>
    ⟨fun h j => testBit_signExtend_negative h acc k j, fun h => signExtend_nonnegative h acc k⟩

/-! ### the closed form of ENCS's bytes -/

/-- `s` is a value of `sint32` (R66), on which `ssize` is the canonical length (R112). -/
def IsSint32 (s : Int) : Prop := -2 ^ 31 ≤ s ∧ s < 2 ^ 31

theorem isSint32_toInt (v : Word) : IsSint32 v.toInt := ⟨BitVec.le_toInt v, BitVec.toInt_lt⟩

theorem IsSint32.div_128 {s : Int} (h : IsSint32 s) : IsSint32 (s / 128) := by
  obtain ⟨hlo, hhi⟩ := h
  constructor <;> omega

/-- `ssize` counts groups as ENCS's loops do: one, and those of the value shifted by 7 while it needs more than 7 bits
(R66, R112). -/
theorem ssize_eq_ite {s : Int} (h : IsSint32 s) : ssize s = if -64 ≤ s ∧ s ≤ 63 then 1 else ssize (s / 128) + 1 := by
  obtain ⟨hlo, hhi⟩ := h
  unfold ssize
  split_ifs <;> omega

theorem one_le_ssize (s : Int) : 1 ≤ ssize s := by
  unfold ssize
  split_ifs <;> omega

theorem ssize_le_five (s : Int) : ssize s ≤ 5 := by
  unfold ssize
  split_ifs <;> omega

/-- ENCS's loop on a value of either sign: continue while the value needs more than 7 bits. `encodeSigned_eq_encsLoop` ties it to
the two loops of R66. -/
def encsLoop : Nat → Int → List Byte
  | 0, s => [low7Int s]
  | n + 1, s => if -64 ≤ s ∧ s ≤ 63 then [low7Int s] else withCont (low7Int s) :: encsLoop n (s / 128)

theorem encsNonneg_eq_encsLoop (n : Nat) {s : Int} (h : 0 ≤ s) : encsNonneg n s = encsLoop n s := by
  induction n generalizing s with
  | zero => rfl
  | succ n ih =>
    have hcond : 63 < s ↔ ¬ (-64 ≤ s ∧ s ≤ 63) := by omega
    rw [encsNonneg, encsLoop, ih (s := s / 128) (by omega)]
    simp only [hcond, ite_not]

theorem encsNeg_eq_encsLoop (n : Nat) {s : Int} (h : s < 0) : encsNeg n s = encsLoop n s := by
  induction n generalizing s with
  | zero => rfl
  | succ n ih =>
    have hcond : s < -64 ↔ ¬ (-64 ≤ s ∧ s ≤ 63) := by omega
    rw [encsNeg, encsLoop, ih (s := s / 128) (by omega)]
    simp only [hcond, ite_not]

theorem encodeSigned_eq_encsLoop (v : Word) : encodeSigned v = encsLoop 4 v.toInt := by
  unfold encodeSigned
  split
  · exact encsNonneg_eq_encsLoop 4 ‹_›
  · exact encsNeg_eq_encsLoop 4 (not_le.1 ‹_›)

/-- Where `n` passes and the final group are enough, ENCS's loop emits `ssize s` bytes (R66). -/
theorem length_encsLoop {n : Nat} {s : Int} (hs : IsSint32 s) (h : ssize s ≤ n + 1) :
    (encsLoop n s).length = ssize s := by
  induction n generalizing s with
  | zero => have := one_le_ssize s; simp [encsLoop]; omega
  | succ n ih =>
    rw [ssize_eq_ite hs] at h ⊢
    by_cases hfits : -64 ≤ s ∧ s ≤ 63
    · simp [encsLoop, hfits]
    · rw [if_neg hfits] at h
      simp [encsLoop, hfits, ih hs.div_128 (Nat.le_of_succ_le_succ h)]

/-- Byte `i` of a signed encoding: group `i` of the value, continued in all bytes but the last (R66). -/
def encsByte (s : Int) (i : Nat) : Byte :=
  if i + 1 < ssize s then withCont (low7Int (s >>> (7 * i))) else low7Int (s >>> (7 * i))

theorem encsByte_succ {s : Int} (hs : IsSint32 s) (hmore : ¬ (-64 ≤ s ∧ s ≤ 63)) (i : Nat) :
    encsByte s (i + 1) = encsByte (s / 128) i := by
  have hshift : s >>> (7 * (i + 1)) = (s / 128) >>> (7 * i) := by
    rw [Nat.mul_succ, Nat.add_comm, Int.shiftRight_add, Int.shiftRight_eq_div_pow s 7]
    rfl
  rw [encsByte, encsByte, hshift, ssize_eq_ite hs, if_neg hmore]
  simp only [Nat.add_lt_add_iff_right]

/-- ENCS's loop emits byte after byte of the encoding (R66). -/
theorem getElem?_encsLoop {n i : Nat} {s : Int} (hs : IsSint32 s) (h : ssize s ≤ n + 1) (hi : i < ssize s) :
    (encsLoop n s)[i]? = some (encsByte s i) := by
  induction n generalizing s i with
  | zero =>
    obtain rfl : i = 0 := by omega
    simp [encsLoop, encsByte, Nat.not_lt.2 h]
  | succ n ih =>
    have hsize := ssize_eq_ite hs
    by_cases hfits : -64 ≤ s ∧ s ≤ 63
    · rw [if_pos hfits] at hsize
      obtain rfl : i = 0 := by omega
      simp [encsLoop, hfits, encsByte, hsize]
    · rw [if_neg hfits] at hsize
      cases i with
      | zero =>
        have hmore : 1 < ssize s := by have := one_le_ssize (s / 128); omega
        simp [encsLoop, hfits, encsByte, hmore]
      | succ i => simp [encsLoop, hfits, encsByte_succ hs hfits, ih (i := i) hs.div_128 (by omega) (by omega)]

/-- The group `x[k+6 : k]` of the 35-bit pattern as R66 writes it. -/
theorem low7Int_shiftRight (v : Word) {k : Nat} (hk : k ≤ 28) :
    low7Int (v.toInt >>> k) = ((v.signExtend 35).extractLsb' k 7).setWidth 8 := by
  have hmask : ∀ b : Byte, b &&& 0x7F#8 = (b.setWidth 7).setWidth 8 := by decide
  have hgroup : ((v.sshiftRight k).signExtend 8).setWidth 7 = (v.signExtend 35).extractLsb' k 7 := by
    refine BitVec.eq_of_getLsbD_eq fun i hi => ?_
    have h8 : i < 8 := by omega
    have h32 : i < 32 := by omega
    have h35 : k + i < 35 := by omega
    simp [BitVec.getLsbD_signExtend, BitVec.getLsbD_sshiftRight, hi, h8, h32, h35, -BitVec.getLsbD_eq_getElem]
  rw [← BitVec.toInt_sshiftRight, ← hgroup]
  exact hmask _

theorem encsByte_continued {v : Word} {i : Nat} (h : i + 1 < ssize v.toInt) :
    encsByte v.toInt i = 0x80#8 ||| ((v.signExtend 35).extractLsb' (7 * i) 7).setWidth 8 := by
  have h5 := ssize_le_five v.toInt
  rw [encsByte, if_pos h, withCont, BitVec.or_comm, low7Int_shiftRight v (by omega)]

theorem encsByte_last (v : Word) :
    encsByte v.toInt (ssize v.toInt - 1) = ((v.signExtend 35).extractLsb' (7 * ssize v.toInt - 7) 7).setWidth 8 := by
  have h5 := ssize_le_five v.toInt
  have hlast : ¬ ssize v.toInt - 1 + 1 < ssize v.toInt := by omega
  rw [encsByte, if_neg hlast, low7Int_shiftRight v (by omega), Nat.mul_sub_one]

theorem length_encodeSigned (v : Word) : (encodeSigned v).length = ssize v.toInt := by
  rw [encodeSigned_eq_encsLoop]
  exact length_encsLoop (isSint32_toInt v) (ssize_le_five _)

/-- Byte `i` of `encode_signed`, or UNSPEC from its length on (R14, R66). -/
theorem producedByte_encodeSigned (v : Word) (i : Nat) :
    producedByte (encodeSigned v) i = if i < ssize v.toInt then .known (encsByte v.toInt i) else .unspec := by
  unfold producedByte
  by_cases hi : i < ssize v.toInt
  · rw [if_pos hi, encodeSigned_eq_encsLoop, getElem?_encsLoop (isSint32_toInt v) (ssize_le_five _) hi]
  · rw [if_neg hi, List.getElem?_eq_none (by rw [length_encodeSigned]; omega)]

/-- Settles O11: R66's two loops are one (`encodeSigned_eq_encsLoop`), which emits `ssize` bytes (`length_encsLoop`) and byte `i` of
the closed form at place `i` (`getElem?_encsLoop`), both by induction on the loop's bound; four passes and the final group are
enough (`ssize_le_five`). -/
theorem encsProducesTheGroups : Obligations.EncsProducesTheGroups := by
  unfold Obligations.EncsProducesTheGroups
  refine ⟨decode_encode .encs, fun s => ⟨_, rfl, ?_⟩⟩
  intro x n
  have h1 : 1 ≤ n := one_le_ssize s.vin.toInt
  have h5 : n ≤ 5 := ssize_le_five s.vin.toInt
  have hob : ∀ i < 5, State.obAt (s.finish (.ok ⟨encodeResults (encodeSigned s.vin), s.pos⟩)) i =
      if i < n then .known (encsByte s.vin.toInt i) else .unspec := fun i hi =>
    (obAt_of_encode rfl hi).trans (producedByte_encodeSigned s.vin i)
  refine ⟨rfl, rfl, ?_, fun i hi => ?_, ?_, fun i hi hn => ?_, rfl, kept_finish s _⟩
  · rw [State.finish_ok_rsize, encodeResults_rsize, length_encodeSigned]
  · rw [hob i (by omega), if_pos (by omega), encsByte_continued hi]
  · rw [hob (n - 1) (by omega), if_pos (by omega), encsByte_last]
  · rw [hob i hi, if_neg (by omega)]

/-! ### the value of a signed payload in 32 bits -/

/-- Reducing an integer modulo `2^n` keeps its low `n` bits (00_scope.md R110). -/
theorem getLsbD_ofInt (n : Nat) (x : Int) (j : Nat) : (BitVec.ofInt n x).getLsbD j = (decide (j < n) && x.testBit j) := by
  cases x with
  | ofNat a => simp [Int.testBit, BitVec.getLsbD_ofNat]
  | negSucc a =>
    rw [BitVec.ofInt_negSucc_eq_not_ofNat, BitVec.getLsbD_not, BitVec.getLsbD_ofNat, Int.testBit]
    cases decide (j < n) <;> rfl

/-- The fill of R69 is ones from bit `7k` up, so none where `7k` is past bit 31. -/
theorem getLsbD_signFill (last : Byte) (k : Nat) {j : Nat} (hj : j < 32) :
    (signFill last k).getLsbD j = (signBit last && decide (7 * k ≤ j)) := by
  unfold signFill
  by_cases hs : signBit last = true
  · by_cases hk : k ≤ 4
    · have hpred : 2 ^ (7 * k) - 1 < 2 ^ 32 := by
        have := Nat.pow_le_pow_right (n := 2) (by decide) (show 7 * k ≤ 32 by omega)
        have := Nat.two_pow_pos (7 * k)
        omega
      have hsucc : 2 ^ (7 * k) - 1 + 1 = 2 ^ (7 * k) := Nat.sub_add_cancel (Nat.two_pow_pos _)
      have hbits := Nat.testBit_two_pow_sub_succ hpred j
      rw [hsucc, Nat.testBit_two_pow_sub_one] at hbits
      rw [if_pos ⟨hs, hk⟩, BitVec.getLsbD_ofNat, hbits]
      simp [hs, hj, ← decide_not]
    · have hpast : ¬ 7 * k ≤ j := by omega
      simp [hk, hpast]
  · simp [hs]

/-- R69's fixed-width form of the value, for every accumulator: its low 32 bits, or'ed with the fill. -/
theorem signedValue_eq (acc k : Nat) (last : Byte) : signedValue acc k last = BitVec.ofNat 32 acc ||| signFill last k := by
  refine BitVec.eq_of_getLsbD_eq fun j hj => ?_
  rw [signedValue, getLsbD_ofInt, BitVec.getLsbD_or, getLsbD_signFill last k hj, BitVec.getLsbD_ofNat]
  cases hs : signBit last with
  | true => simp [testBit_signExtend_negative hs, hj, Bool.or_comm]
  | false => simp [signExtend_nonnegative hs, Int.testBit]

/-! ### DECS on a slice -/

/-- `decode_signed` of a slice whose scan ends at byte `k - 1`, a terminator or the slice's last byte (R69). -/
theorem decodeSigned_of_end {t : Nat → Byte} {k n : Nat} (h1 : 1 ≤ k) (hk : k ≤ n) (h5 : n ≤ 5) (hcont : continued t k)
    (hend : contBit (t (k - 1)) = false ∨ k = n) :
    decodeSigned ((List.range n).map t) = wireWord t k ||| signFill (t (k - 1)) k := by
  rw [decodeSigned, scan_map_range h1 hk hcont hend, signedValue_eq, ofNat_payload_eq_wireWord t (hk.trans h5)]

theorem decsEffect_of_end {s : State} {k : Nat} (h5 : s.ilen.toNat ≤ 5) (h1 : 1 ≤ k) (hk : k ≤ s.ilen.toNat)
    (hcont : continued s.ibAt k) (hend : contBit (s.ibAt (k - 1)) = false ∨ k = s.ilen.toNat) :
    decsEffect s =
      .ok ⟨decodeResults (wireWord s.ibAt k ||| signFill (s.ibAt (k - 1)) k) s.ilen.toNat, s.pos⟩ := by
  simp [decsEffect, slice_eq_map_ibAt (h1.trans hk) h5, decodeSigned_of_end h1 hk h5 hcont hend]

theorem decsEffect_invalid {s : State} (h : s.ilen.toNat = 0 ∨ 5 < s.ilen.toNat) :
    decsEffect s = .error .invalidVarint := by
  simp [decsEffect, slice_eq_error h]

theorem exec_decs (s : State) : exec .decs s = .next (s.finish (decsEffect s)) := rfl

/-- Settles O14: the scan of the slice ends at byte `k - 1`, terminator or not (`scan_map_range`), and the sign-extended payload in
32 bits is R69's form (`signedValue_eq`); a slice of no byte or too many has no value (`decsEffect_invalid`). A completion keeps
the rest (`kept_finish`, `failedAs_fail`). -/
theorem decsDecodesOrRejects : Obligations.DecsDecodesOrRejects := by
  unfold Obligations.DecsDecodesOrRejects
  refine ⟨decode_encode .decs, fun s k h5 h1 hk hcont hend => ⟨_, exec_decs s, ?_⟩, fun s h => ⟨_, exec_decs s, ?_⟩⟩
  · rw [decsEffect_of_end h5 h1 hk hcont hend]
    exact ⟨rfl, rfl, rfl, obUnspec_of_ob rfl, rfl, kept_finish s _⟩
  · rw [decsEffect_invalid h]
    exact failedAs_fail s .invalidVarint

end Sys2Proof.Machine

/-! PROOFS. The stream family (42_stream_probe.md): what the probes and the read phase make of the bytes at `POS`, and the four
commands' completions. -/

namespace Sys2Proof.Machine

/-! ### the probes, by what stands at the position -/

theorem probeUnsigned_varint {m : Memory} {p c : Nat} {t : Nat → Byte} (h : varintAt m p c t) :
    probeUnsigned m p = .ok c := by
  have hprobe := probe_varint h
  obtain ⟨-, -, -, -, hterm⟩ := h
  simp [probeUnsigned, hprobe, hterm]

/-- The terminator check of R73 and R76: the fifth byte is still continued. -/
theorem probeUnsigned_unterminated {m : Memory} {p : Nat} {t : Nat → Byte} (h : unterminatedAt m p t) :
    probeUnsigned m p = .error .invalidVarint := by
  simp [probeUnsigned, probe_unterminated h, h.2 4 (by decide)]

theorem probeUnsigned_endsInside {m : Memory} {p c : Nat} {t : Nat → Byte} (h : endsInside m p c t) :
    probeUnsigned m p = .error .streamEnd := by
  simp [probeUnsigned, probe_endsInside h]

/-- What a signed stream command accepts at a position (R74, R77): a varint, or five bytes without a terminator. -/
def signedVarintAt (m : Memory) (p c : Nat) (t : Nat → Byte) : Prop :=
  varintAt m p c t ∨ (c = 5 ∧ unterminatedAt m p t)

theorem probeSigned_signedVarintAt {m : Memory} {p c : Nat} {t : Nat → Byte} (h : signedVarintAt m p c t) :
    probeSigned m p = .ok c := by
  rcases h with hv | ⟨rfl, hu⟩
  · simp [probeSigned, probe_varint hv]
  · simp [probeSigned, probe_unterminated hu]

theorem probeSigned_endsInside {m : Memory} {p c : Nat} {t : Nat → Byte} (h : endsInside m p c t) :
    probeSigned m p = .error .streamEnd := by
  simp [probeSigned, probe_endsInside h]

theorem bytesAt_of_signedVarintAt {m : Memory} {p c : Nat} {t : Nat → Byte} (h : signedVarintAt m p c t) :
    1 ≤ c ∧ c ≤ 5 ∧ bytesAt m p c t := by
  rcases h with ⟨h1, h5, hbytes, -, -⟩ | ⟨rfl, hbytes, -⟩
  · exact ⟨h1, h5, hbytes⟩
  · exact ⟨by decide, le_rfl, hbytes⟩

/-! ### the read phase and the advance of `POS` -/

/-- Bytes that can be read lie below `SLEN` (R33). -/
theorem add_le_slen_of_bytesAt {m : Memory} {p c : Nat} {t : Nat → Byte} (h1 : 1 ≤ c) (h : bytesAt m p c t) :
    p + c ≤ m.slen.val := by
  have hlast : memRead m (p + (c - 1)) = .ok (t (c - 1)) := h (c - 1) (by omega)
  rcases memRead_cases m (p + (c - 1)) with ⟨-, -, hlt⟩ | ⟨hend, -⟩
  · omega
  · cases hend.symm.trans hlast

/-- `SLEN` is below `2^32`, so the position after bytes of the stream is one `POS` can hold (R39). -/
theorem toNat_ofNat_add_of_bytesAt {m : Memory} {p c : Nat} {t : Nat → Byte} (h1 : 1 ≤ c) (h : bytesAt m p c t) :
    (BitVec.ofNat 32 (p + c)).toNat = p + c := by
  have hslen : p + c < 4294967296 := (add_le_slen_of_bytesAt h1 h).trans_lt m.slen.isLt
  exact Nat.mod_eq_of_lt hslen

/-- A stream decode after a probe that counted `c` bytes which exist (R75). -/
theorem streamEffect_bytesAt {s : State} {c : Nat} {t : Nat → Byte} (value : List Byte → Word)
    (h : bytesAt s.stream s.pos.toNat c t) :
    streamEffect s (.ok c) value =
      .ok ⟨decodeResults (value ((List.range c).map t)) c, BitVec.ofNat 32 (s.pos.toNat + c)⟩ := by
  simp [streamEffect, readn_bytesAt h]

/-! ### the values -/

theorem unsignedValue_payload (b : Bool) (t : Nat → Byte) {c : Nat} (h5 : c ≤ 5) :
    unsignedValue b (payload ((List.range c).map t)) = wireWord t c - biasValue b := by
  rw [unsignedValue, ofNat_payload_eq_wireWord t h5]

/-- The value DSTRS gives to bytes read, whose last one carries the sign (R77). -/
theorem signedValue_payload (t : Nat → Byte) {c : Nat} (h1 : 1 ≤ c) (h5 : c ≤ 5) :
    signedValue (payload ((List.range c).map t)) ((List.range c).map t).length (((List.range c).map t).getLastD 0#8) =
      wireWord t c ||| signFill (t (c - 1)) c := by
  have hlast : ((List.range c).map t).getLastD 0#8 = t (c - 1) := by
    obtain ⟨n, rfl⟩ : ∃ n, c = n + 1 := ⟨c - 1, by omega⟩
    simp [List.range_succ]
  rw [hlast, List.length_map, List.length_range, signedValue_eq, ofNat_payload_eq_wireWord t h5]

/-! ### the commands -/

theorem exec_peeku (s : State) :
    exec .peeku s = .next (s.finish (peekEffect s (probeUnsigned s.stream s.pos.toNat))) := rfl

theorem exec_peeks (s : State) :
    exec .peeks s = .next (s.finish (peekEffect s (probeSigned s.stream s.pos.toNat))) := rfl

theorem exec_dstru (b : Bool) (s : State) :
    exec (.dstru b) s = .next (s.finish (streamEffect s (probeUnsigned s.stream s.pos.toNat) fun t =>
      unsignedValue b (payload t))) := rfl

theorem exec_dstrs (s : State) :
    exec .dstrs s = .next (s.finish (streamEffect s (probeSigned s.stream s.pos.toNat) fun t =>
      signedValue (payload t) t.length (t.getLastD 0#8))) := rfl

@[simp] theorem peekEffect_error (s : State) (f : Failure) : peekEffect s (.error f) = .error f := rfl

@[simp] theorem streamEffect_error (s : State) (f : Failure) (value : List Byte → Word) :
    streamEffect s (.error f) value = .error f := rfl

/-- A peek that counted `c` bytes completes `OK` with the count and nothing else (R73, R74). -/
theorem finish_peekEffect_ok (s : State) (c : Nat) :
    let u := s.finish (peekEffect s (.ok c))
    u.status = .ok ∧ u.rsize = .known (BitVec.ofNat 3 c) ∧ u.rval = .unspec ∧ u.obUnspec ∧ u.pos = s.pos ∧ s.kept u :=
  ⟨rfl, rfl, rfl, obUnspec_of_ob rfl, rfl, kept_finish s _⟩

/-- A stream decode of `c` bytes that exist completes `OK` with their value and their count, and `POS` past them (R75 to R77). -/
theorem finish_streamEffect_bytesAt {s : State} {c : Nat} {t : Nat → Byte} (value : List Byte → Word) (h1 : 1 ≤ c)
    (h : bytesAt s.stream s.pos.toNat c t) :
    let u := s.finish (streamEffect s (.ok c) value)
    u.status = .ok ∧ u.rval = .known (value ((List.range c).map t)) ∧ u.rsize = .known (BitVec.ofNat 3 c) ∧ u.obUnspec ∧
      u.pos.toNat = s.pos.toNat + c ∧ s.kept u := by
  rw [streamEffect_bytesAt value h]
  exact ⟨rfl, rfl, rfl, obUnspec_of_ob rfl, toNat_ofNat_add_of_bytesAt h1 h, kept_finish s _⟩

/-- Settles O21: the probe answers a varint's count, `InvalidVarint` on five continued bytes and `StreamEnd` at the stream's end
(`probeUnsigned_varint`, `probeUnsigned_unterminated`, `probeUnsigned_endsInside`); a count completes as `finish_peekEffect_ok`
says, a failure as `failedAs_fail`. -/
theorem peekuMeasuresOrFails : Obligations.PeekuMeasuresOrFails := by
  unfold Obligations.PeekuMeasuresOrFails
  refine ⟨decode_encode .peeku, fun s c t hv => ⟨_, exec_peeku s, ?_⟩, fun s t hu => ⟨_, exec_peeku s, ?_⟩,
    fun s c t he => ⟨_, exec_peeku s, ?_⟩⟩
  · rw [probeUnsigned_varint hv]
    exact finish_peekEffect_ok s c
  · rw [probeUnsigned_unterminated hu, peekEffect_error, State.finish_error]
    exact failedAs_fail s .invalidVarint
  · rw [probeUnsigned_endsInside he, peekEffect_error, State.finish_error]
    exact failedAs_fail s .streamEnd

/-- Settles O22: the signed probe has no terminator check, so it counts a varint and five continued bytes alike
(`probeSigned_signedVarintAt`), and fails only where the stream ends (`probeSigned_endsInside`). -/
theorem peeksMeasuresOrFails : Obligations.PeeksMeasuresOrFails := by
  unfold Obligations.PeeksMeasuresOrFails
  refine ⟨decode_encode .peeks, fun s c t hv => ⟨_, exec_peeks s, ?_⟩, fun s c t he => ⟨_, exec_peeks s, ?_⟩⟩
  · rw [probeSigned_signedVarintAt hv]
    exact finish_peekEffect_ok s c
  · rw [probeSigned_endsInside he, peekEffect_error, State.finish_error]
    exact failedAs_fail s .streamEnd

/-- Settles O23: after PEEKU's probe the read phase answers the same bytes, whose payload less the bias is the value
(`unsignedValue_payload`), and `POS` moves past them (`finish_streamEffect_bytesAt`); a failed probe fails the command before any
write. -/
theorem dstruDecodesOrFails : Obligations.DstruDecodesOrFails := by
  unfold Obligations.DstruDecodesOrFails
  refine ⟨decode_encode (.dstru false), decode_encode (.dstru true), fun b s c t hv => ⟨_, exec_dstru b s, ?_⟩,
    fun b s t hu => ⟨_, exec_dstru b s, ?_⟩, fun b s c t he => ⟨_, exec_dstru b s, ?_⟩⟩
  · rw [probeUnsigned_varint hv]
    obtain ⟨h1, h5, hbytes, -, -⟩ := hv
    have hvalue : unsignedValue b (payload ((List.range c).map t)) = wireWord t c - if b then 1#32 else 0#32 :=
      unsignedValue_payload b t h5
    rw [← hvalue]
    exact finish_streamEffect_bytesAt _ h1 hbytes
  · rw [probeUnsigned_unterminated hu, streamEffect_error, State.finish_error]
    exact failedAs_fail s .invalidVarint
  · rw [probeUnsigned_endsInside he, streamEffect_error, State.finish_error]
    exact failedAs_fail s .streamEnd

/-- Settles O24: after PEEKS's probe the read phase answers the same bytes, a varint or five continued bytes, whose sign-extended
payload is the value (`signedValue_payload`), and `POS` moves past them (`finish_streamEffect_bytesAt`); only the stream's end
fails. -/
theorem dstrsDecodesOrFails : Obligations.DstrsDecodesOrFails := by
  unfold Obligations.DstrsDecodesOrFails
  refine ⟨decode_encode .dstrs, fun s c t hv => ⟨_, exec_dstrs s, ?_⟩, fun s c t he => ⟨_, exec_dstrs s, ?_⟩⟩
  · rw [probeSigned_signedVarintAt hv]
    obtain ⟨h1, h5, hbytes⟩ := bytesAt_of_signedVarintAt hv
    rw [← signedValue_payload t h1 h5]
    exact finish_streamEffect_bytesAt _ h1 hbytes
  · rw [probeSigned_endsInside he, streamEffect_error, State.finish_error]
    exact failedAs_fail s .streamEnd

end Sys2Proof.Machine

/-! PROOFS. The exceptions family (60_exceptions.md): the four completions, what a failure leaves, and the cause table. -/

namespace Sys2Proof.Machine

/-! ### the four completions -/

/-- Settles O35: every byte written to `CMD` is a completion (`runCommand_finish`), which reports `OK` or one of the three
failures. -/
theorem everyCommandCompletesInOneOfFourWays : Obligations.EveryCommandCompletesInOneOfFourWays := by
  unfold Obligations.EveryCommandCompletesInOneOfFourWays
  intro w s
  obtain ⟨o, hfinish⟩ := runCommand_finish w s
  refine ⟨_, hfinish, ?_⟩
  cases o with
  | ok e => exact .inl ⟨rfl, rfl⟩
  | error f =>
    cases f with
    | invalidVarint => exact .inr (.inl ⟨rfl, rfl⟩)
    | streamEnd => exact .inr (.inr (.inl ⟨rfl, rfl⟩))
    | illegalCommand => exact .inr (.inr (.inr ⟨rfl, rfl⟩))

/-- Settles O36: a completion other than `OK` is `State.fail`, whose effect `failedAs_fail` states. -/
theorem failureLeavesEverythingElse : Obligations.FailureLeavesEverythingElse := by
  unfold Obligations.FailureLeavesEverythingElse
  intro w s t hrun hfailed
  obtain ⟨o, hfinish⟩ := runCommand_finish w s
  obtain rfl : s.finish o = t := Host.Outcome.next.inj (hfinish.symm.trans hrun)
  cases o with
  | ok e => exact absurd rfl hfailed
  | error f => exact failedAs_fail s f

/-! ### the encoders -/

/-- A step whose host word carries a command's word in its low byte runs that command (R29, R48, R58). -/
theorem step_command {s : State} {w : Word} {rest : List HostMove} {i : Instr} (hp : s.pending = .write 0 w :: rest)
    (hw : w.toNat % 2 ^ 8 = (encode i).toNat) : step s = exec i { s with pending := rest } := by
  have hbyte : commandByte w = encode i := BitVec.eq_of_toNat_eq ((BitVec.toNat_setWidth 8 w).trans hw)
  exact (step_pending hp).trans (runCommand_ok (hbyte ▸ decode_encode i) _)

/-- Settles O38: each of the three words is an encoder's (`step_command`), and an encoder's effect is never a failure. -/
theorem encodersNeverFail : Obligations.EncodersNeverFail := by
  unfold Obligations.EncodersNeverFail
  rintro s w rest hp (hw | hw | hw)
  · exact ⟨_, step_command (i := .encu false) hp hw, rfl⟩
  · exact ⟨_, step_command (i := .encu true) hp hw, rfl⟩
  · exact ⟨_, step_command (i := .encs) hp hw, rfl⟩

/-! ### the failures of the register decoders -/

/-- Some byte is the first terminator, or all are continued. -/
theorem continued_or_first_terminator (t : Nat → Byte) (n : Nat) :
    (∀ i < n, contBit (t i) = true) ∨ ∃ k, 1 ≤ k ∧ k ≤ n ∧ continued t k ∧ contBit (t (k - 1)) = false := by
  by_cases hterm : ∃ j, j < n ∧ contBit (t j) = false
  · refine .inr ⟨Nat.find hterm + 1, by omega, (Nat.find_spec hterm).1, fun i hi => ?_, (Nat.find_spec hterm).2⟩
    have hfirst := Nat.find_min hterm (show i < Nat.find hterm by omega)
    have hlt : i < n := (show i < Nat.find hterm by omega).trans (Nat.find_spec hterm).1
    simpa [hlt] using hfirst
  · exact .inl (by simpa using hterm)

/-- DECU fails for nothing but the table's conditions (R63, R82). -/
theorem decuEffect_eq_error_iff {b : Bool} {s : State} {f : Failure} :
    decuEffect b s = .error f ↔ f = .invalidVarint ∧
      ((s.ilen.toNat = 0 ∨ 5 < s.ilen.toNat) ∨
        (1 ≤ s.ilen.toNat ∧ s.ilen.toNat ≤ 5 ∧ ∀ j < s.ilen.toNat, contBit (s.ibAt j) = true)) := by
  constructor
  · intro heff
    have hf : f = .invalidVarint := by
      rcases decuEffect_cases b s with herr | ⟨v, -, -, hok⟩
      · exact (Except.error.inj (herr.symm.trans heff)).symm
      · cases hok.symm.trans heff
    refine ⟨hf, or_iff_not_imp_left.2 fun hlen => ⟨by omega, by omega, ?_⟩⟩
    rcases continued_or_first_terminator s.ibAt s.ilen.toNat with hcont | ⟨k, h1, hk, hcont, hterm⟩
    · exact hcont
    · cases (decuEffect_of_terminator b (by omega) h1 hk hcont hterm).symm.trans heff
  · rintro ⟨rfl, (hlen | hlen) | ⟨-, -, hcont⟩⟩
    · exact decuEffect_invalid b (.inl hlen)
    · exact decuEffect_invalid b (.inr (.inl hlen))
    · exact decuEffect_invalid b (.inr (.inr hcont))

/-- DECS fails for nothing but a bad length (R69, R82). -/
theorem decsEffect_eq_error_iff {s : State} {f : Failure} :
    decsEffect s = .error f ↔ f = .invalidVarint ∧ (s.ilen.toNat = 0 ∨ 5 < s.ilen.toNat) := by
  rcases slice_cases s with ⟨hbad, -⟩ | ⟨h1, h5, hslice, -⟩
  · rw [decsEffect_invalid hbad]
    exact ⟨fun herr => ⟨(Except.error.inj herr).symm, hbad⟩, fun ⟨hf, _⟩ => hf ▸ rfl⟩
  · have hgood : ¬ (s.ilen.toNat = 0 ∨ 5 < s.ilen.toNat) := by omega
    simp [decsEffect, hslice, hgood]

/-! ### the failures of the stream commands -/

/-- Byte `i` of the stream from position `p` on, where it exists (`streamByte_of_memRead`). -/
def streamByte (m : Memory) (p i : Nat) : Byte := cellsGet m.cells (p + i)

theorem streamByte_of_memRead {m : Memory} {p i : Nat} {b : Byte} (h : memRead m (p + i) = .ok b) :
    streamByte m p i = b := by
  rcases memRead_cases m (p + i) with ⟨-, -, hlt⟩ | ⟨hend, -⟩
  · exact Except.ok.inj ((memRead_below hlt).symm.trans h)
  · cases hend.symm.trans h

theorem streamByte_of_continued {m : Memory} {p n : Nat}
    (h : ∀ i < n, ∃ b, memRead m (p + i) = .ok b ∧ contBit b = true) :
    bytesAt m p n (streamByte m p) ∧ ∀ i < n, contBit (streamByte m p i) = true := by
  constructor <;> intro i hi <;> obtain ⟨b, hb, hc⟩ := h i hi <;> rw [streamByte_of_memRead hb]
  · exact hb
  · exact hc

/-- What stands at a position is a varint, five bytes without a terminator, or a stream that ends inside (R72, R89). -/
theorem position_cases (m : Memory) (p : Nat) :
    (∃ c t, varintAt m p c t) ∨ (∃ t, unterminatedAt m p t) ∨ ∃ c t, endsInside m p c t := by
  rcases probe_cases m p with ⟨n, last, -, h1, h5, hcont, hlast, hfull⟩ | ⟨-, n, h5, hend, hcont⟩
  · obtain ⟨n, rfl⟩ : ∃ j, n = j + 1 := ⟨n - 1, by omega⟩
    obtain ⟨hbytes, hcont⟩ := streamByte_of_continued (n := n) fun i hi => hcont i (by omega)
    have hbyte : streamByte m p n = last := streamByte_of_memRead hlast
    have hbytes' : bytesAt m p (n + 1) (streamByte m p) := fun i hi => by
      obtain hi | rfl := Nat.lt_succ_iff_lt_or_eq.1 hi
      · exact hbytes i hi
      · rw [hbyte]; exact hlast
    by_cases hc : contBit last = true
    · obtain rfl : n = 4 := by have := hfull hc; omega
      refine .inr (.inl ⟨_, hbytes', fun i hi => ?_⟩)
      obtain hi | rfl := Nat.lt_succ_iff_lt_or_eq.1 hi
      · exact hcont i hi
      · rw [hbyte]; exact hc
    · refine .inl ⟨_, _, h1, h5, hbytes', fun i hi => hcont i (by omega), ?_⟩
      rw [Nat.add_sub_cancel, hbyte]
      exact Bool.eq_false_of_not_eq_true hc
  · obtain ⟨hbytes, hcont⟩ := streamByte_of_continued hcont
    exact .inr (.inr ⟨n, _, h5, hbytes, hcont, hend⟩)

/-- The unsigned probe fails exactly where the table says (R73, R76, R82). -/
theorem probeUnsigned_eq_error_iff {m : Memory} {p : Nat} {f : Failure} :
    probeUnsigned m p = .error f ↔
      (f = .invalidVarint ∧ ∃ t, unterminatedAt m p t) ∨ (f = .streamEnd ∧ ∃ c t, endsInside m p c t) := by
  constructor
  · intro hprobe
    rcases position_cases m p with ⟨c, t, hv⟩ | ⟨t, hu⟩ | ⟨c, t, he⟩
    · cases (probeUnsigned_varint hv).symm.trans hprobe
    · exact .inl ⟨(Except.error.inj ((probeUnsigned_unterminated hu).symm.trans hprobe)).symm, t, hu⟩
    · exact .inr ⟨(Except.error.inj ((probeUnsigned_endsInside he).symm.trans hprobe)).symm, c, t, he⟩
  · rintro (⟨rfl, t, hu⟩ | ⟨rfl, c, t, he⟩)
    · exact probeUnsigned_unterminated hu
    · exact probeUnsigned_endsInside he

/-- The signed probe fails only where the stream ends inside (R74, R77, R82). -/
theorem probeSigned_eq_error_iff {m : Memory} {p : Nat} {f : Failure} :
    probeSigned m p = .error f ↔ f = .streamEnd ∧ ∃ c t, endsInside m p c t := by
  constructor
  · intro hprobe
    rcases position_cases m p with ⟨c, t, hv⟩ | ⟨t, hu⟩ | ⟨c, t, he⟩
    · cases (probeSigned_signedVarintAt (.inl hv)).symm.trans hprobe
    · cases (probeSigned_signedVarintAt (.inr ⟨rfl, hu⟩)).symm.trans hprobe
    · exact ⟨(Except.error.inj ((probeSigned_endsInside he).symm.trans hprobe)).symm, c, t, he⟩
  · rintro ⟨rfl, c, t, he⟩
    exact probeSigned_endsInside he

theorem peekEffect_eq_error_iff {s : State} {count : Except Failure Nat} {f : Failure} :
    peekEffect s count = .error f ↔ count = .error f := by
  cases count <;> simp [peekEffect]

/-- After a count the read phase does not fail, so a stream decode fails exactly as its probe does (R75). -/
theorem streamEffect_eq_error_iff {s : State} {count : Except Failure Nat} (value : List Byte → Word) {f : Failure}
    (h : (∃ g, count = .error g) ∨ ∃ c, 1 ≤ c ∧ c ≤ 5 ∧ s.pos.toNat + c ≤ s.stream.slen.val ∧ count = .ok c) :
    streamEffect s count value = .error f ↔ count = .error f := by
  rcases streamEffect_cases s value h with ⟨g, rfl, heff⟩ | ⟨c, v, -, -, -, rfl, heff⟩ <;> simp [heff]

/-! ### the cause table -/

theorem Failure.status_inj {f g : Failure} : f.status = g.status ↔ f = g := by
  cases f <;> cases g <;> simp [Failure.status]

/-- A completion reports a failure exactly where that failure was raised (R83, R84). -/
theorem finish_status_eq_iff {s : State} {o : Except Failure Effect} {f : Failure} :
    (s.finish o).status = f.status ↔ o = .error f := by
  cases o with
  | ok e => simp [f.status_ne_ok.symm]
  | error g => simp [Failure.status_inj]

/-- The cause table (R82), by the failure a decoded command raises. -/
def FailureCause (i : Instr) (s : State) : Failure → Prop
  | .invalidVarint =>
    ((i = .decs ∨ ∃ b, i = .decu b) ∧ (s.ilen.toNat = 0 ∨ 5 < s.ilen.toNat)) ∨
    ((∃ b, i = .decu b) ∧ 1 ≤ s.ilen.toNat ∧ s.ilen.toNat ≤ 5 ∧ ∀ j < s.ilen.toNat, contBit (s.ibAt j) = true) ∨
    ((i = .peeku ∨ ∃ b, i = .dstru b) ∧ ∃ x, unterminatedAt s.stream s.pos.toNat x)
  | .streamEnd =>
    (i = .peeku ∨ i = .peeks ∨ i = .dstrs ∨ ∃ b, i = .dstru b) ∧ ∃ c x, endsInside s.stream s.pos.toNat c x
  | .illegalCommand => False

/-- The table is what each command's effect fails for. -/
theorem exec_status_iff_cause {i : Instr} {s t : State} (hexec : exec i s = .next t) (f : Failure) :
    t.status = f.status ↔ FailureCause i s f := by
  have hraised : ∀ o, exec i s = .next (s.finish o) → (t.status = f.status ↔ o = .error f) := fun o ho => by
    rw [Host.Outcome.next.inj (hexec.symm.trans ho), finish_status_eq_iff]
  cases i with
  | encu b | encs => rw [hraised _ rfl]; cases f <;> simp [FailureCause]
  | decu b =>
    rw [hraised _ (exec_decu b s), decuEffect_eq_error_iff]
    cases f <;> simp [FailureCause]
  | decs => rw [hraised _ (exec_decs s), decsEffect_eq_error_iff]; cases f <;> simp [FailureCause]
  | peeku =>
    rw [hraised _ (exec_peeku s), peekEffect_eq_error_iff, probeUnsigned_eq_error_iff]
    cases f <;> simp [FailureCause]
  | peeks =>
    rw [hraised _ (exec_peeks s), peekEffect_eq_error_iff, probeSigned_eq_error_iff]
    cases f <;> simp [FailureCause]
  | dstru b =>
    rw [hraised _ (exec_dstru b s), streamEffect_eq_error_iff _ (probeUnsigned_cases _ _), probeUnsigned_eq_error_iff]
    cases f <;> simp [FailureCause]
  | dstrs =>
    rw [hraised _ (exec_dstrs s), streamEffect_eq_error_iff _ (probeSigned_cases _ _), probeSigned_eq_error_iff]
    cases f <;> simp [FailureCause]

/-- `IllegalCommand` is reported for the illegal words only: no decoded command raises it (R52, R87). -/
theorem runCommand_illegalCommand_iff {w : Byte} {s t : State} (hrun : runCommand w s = .next t) :
    t.status = .illegalCommand ↔ CommandWord.legal w = false := by
  cases hlegal : CommandWord.legal w with
  | true =>
    rw [runCommand_ok (decode_of_legal hlegal)] at hrun
    exact iff_of_false (exec_status_iff_cause hrun .illegalCommand).1 Bool.noConfusion
  | false =>
    obtain ⟨e, he⟩ := decode_of_illegal hlegal
    obtain rfl := Host.Outcome.next.inj ((runCommand_error he s).symm.trans hrun)
    simp [Failure.status]

/-- Settles O39: a command's failure is the one its effect raises, and each effect raises one exactly for the table's conditions
(`exec_status_iff_cause`); `IllegalCommand` is left to the words R52 rejects (`runCommand_illegalCommand_iff`,
`CommandWord.legal_eq_false`), and what a failure leaves is O36. -/
theorem failuresHaveExactlyTheirCauses : Obligations.FailuresHaveExactlyTheirCauses := by
  unfold Obligations.FailuresHaveExactlyTheirCauses
  refine ⟨fun i s t hexec => ⟨?invalidVarint, ?streamEnd⟩, fun w s t hrun => ⟨?illegalCommand, ?failed⟩, rfl, rfl, rfl⟩
  case invalidVarint => exact exec_status_iff_cause hexec .invalidVarint
  case streamEnd => exact exec_status_iff_cause hexec .streamEnd
  case illegalCommand => exact (runCommand_illegalCommand_iff hrun).trans CommandWord.legal_eq_false
  case failed => exact failureLeavesEverythingElse w s t hrun

end Sys2Proof.Machine

/-! PROOFS. The reset family (70_reset_and_hazards.md): a reset in any state. -/

namespace Sys2Proof.Machine

/-- A step whose next host move is a reset answers `State.resetCore` (R97). -/
theorem step_reset {s : State} {rest : List HostMove} (hp : s.pending = .reset :: rest) :
    step s = .next ({ s with pending := rest } : State).resetCore :=
  step_pending hp

/-- `IB` at its reset value reads 0 at each of its five bytes (R27). -/
theorem ibAt_of_reset_ib {t : State} (h : t.ib = State.reset.ib) {i : Nat} (hi : i < 5) : t.ibAt i = 0#8 := by
  rw [ibAt_of_ib h]
  interval_cases i <;> rfl

/-- The result registers right after a reset (R27, R97). -/
theorem resultsUnspec_resetCore (s : State) : s.resetCore.resultsUnspec :=
  ⟨s.resetCore_rval, s.resetCore_rsize, obUnspec_of_ob s.resetCore_ob⟩

/-- A reset leaves the stream alone (R98). -/
theorem streamKept_resetCore (s : State) : s.streamKept s.resetCore :=
  ⟨congrArg Memory.slen s.resetCore_stream, fun p => congrArg (memRead · p) s.resetCore_stream⟩

/-- Settles O45: the step is `State.resetCore` of the state without the served move (`step_reset`), and each clause is that
operation's law for its register; of the two register files, `IB` reads 0 (`ibAt_of_reset_ib`) and `OB` UNSPEC. -/
theorem resetSetsEveryRegister : Obligations.ResetSetsEveryRegister := by
  unfold Obligations.ResetSetsEveryRegister
  intro s rest hp
  let served : State := { s with pending := rest }
  have hstatus : served.resetCore.status = .none := served.resetCore_status
  have hcode : served.resetCore.status.code = 0#3 := congrArg Status.code hstatus
  have hib : ∀ i < 5, served.resetCore.ibAt i = 0#8 := fun _ hi => ibAt_of_reset_ib served.resetCore_ib hi
  exact ⟨served.resetCore, step_reset hp, hstatus, hcode, served.resetCore_vin, served.resetCore_ilen, hib,
    resultsUnspec_resetCore served, served.resetCore_pos, streamKept_resetCore served, served.resetCore_pending,
    served.resetCore_replies⟩

end Sys2Proof.Machine

/-! PROOFS. Host words: the command a 32-bit word stands for, the step that runs it, and the mnemonics (30_encoding.md). -/

namespace Sys2Proof.Machine

/-- Settles O2: a byte decodes to `i` exactly when it is `encode i` (`decode_eq_ok_iff`), and the command byte of a host word is
its low 8 bits as a number. -/
theorem hostWordDecodesToItsCommand : Obligations.HostWordDecodesToItsCommand := by
  unfold Obligations.HostWordDecodesToItsCommand
  intro w i
  have hbyte : (commandByte w).toNat = w.toNat % 2 ^ 8 := BitVec.toNat_setWidth 8 w
  rw [decode_eq_ok_iff, ← BitVec.toNat_inj, hbyte]

/-- Settles O3: a step serves the next move (`step_pending`), which for a write of `CMD` runs the decoded command
(`runCommand_ok`). -/
theorem stepRunsTheDecodedCommand : Obligations.StepRunsTheDecodedCommand := by
  unfold Obligations.StepRunsTheDecodedCommand
  refine ⟨fun s w rest i hp hdec => ?_, fun s hp => ?_⟩
  · exact (step_pending hp).trans (runCommand_ok hdec _)
  · simp [step, nextMove, hp]

/-- Settles O5: the mnemonic table of R55, looked up. -/
theorem mnemonicsGiveTheirWords : Obligations.MnemonicsGiveTheirWords := by
  unfold Obligations.MnemonicsGiveTheirWords
  decide

end Sys2Proof.Machine

/-! PROOFS. Round trips: what an encoder's bytes are worth to the decoders, from the registers (40_unsigned_codec.md,
41_signed_codec.md) and from a stream (42_stream_probe.md). -/

namespace Sys2Proof.Machine

/-! ### the values -/

theorem encodeUnsigned_ne_nil (b : Bool) (v : Word) : encodeUnsigned b v ≠ [] :=
  List.ne_nil_of_length_pos (encodeUnsigned_wire b v).2.1

theorem encodeSigned_ne_nil (v : Word) : encodeSigned v ≠ [] :=
  List.ne_nil_of_length_pos (encodeSigned_wire v).2.1

/-- The bias added before encoding is the bias taken off after decoding (R60, R63). -/
theorem unsignedValue_encodeUnsigned (b : Bool) (v : Word) : unsignedValue b (payload (encodeUnsigned b v)) = v := by
  have hfits : (v + biasValue b).toNat < 2 ^ (7 * (4 + 1)) := (v + biasValue b).isLt.trans (by decide)
  rw [unsignedValue, encodeUnsigned, Config.maxLen, payload_encuLoop 4 _ hfits, BitVec.ofNat_toNat, BitVec.setWidth_eq,
    BitVec.add_sub_cancel]

/-- Sign extension from an encoding's last byte gives the encoded integer back (R66, R68): the payload of a negative one is
`2^(7n)` too large, and bit 6 of the last byte says so. -/
theorem signExtend_encodeSigned (v : Word) :
    signExtend (payload (encodeSigned v)) (encodeSigned v).length
      ((encodeSigned v).getD ((encodeSigned v).length - 1) 0#8) = v.toInt := by
  obtain ⟨hlo, hhi⟩ := isSint32_toInt v
  by_cases hsign : 0 ≤ v.toInt
  · have hl : encodeSigned v = encsNonneg 4 v.toInt := if_pos hsign
    obtain ⟨hvalue, hbit⟩ := encsNonneg_value 4 v.toInt hsign (by omega)
    rw [hl, signExtend_nonnegative hbit, hvalue]
  · have hl : encodeSigned v = encsNeg 4 v.toInt := if_neg hsign
    obtain ⟨hvalue, hbit⟩ := encsNeg_value 4 v.toInt (by omega) (by omega)
    have hpow : ((2 ^ (7 * (encsNeg 4 v.toInt).length) : Nat) : Int) = 128 ^ (encsNeg 4 v.toInt).length := by
      rw [Nat.pow_mul]
      norm_cast
    rw [hl, signExtend, if_pos hbit, Config.group, Nat.mod_eq_of_lt (payload_lt _), hpow, hvalue, Int.add_sub_cancel]

theorem signedValue_encodeSigned (v : Word) :
    signedValue (payload (encodeSigned v)) (encodeSigned v).length
      ((encodeSigned v).getD ((encodeSigned v).length - 1) 0#8) = v := by
  rw [signedValue, signExtend_encodeSigned, BitVec.ofInt_toInt]

/-! ### from the registers -/

/-- The size an encode of 1 to 5 bytes reports, as a number (R13). -/
theorem toNat_ofNat_size {n : Nat} (h : n ≤ 5) : (BitVec.ofNat 3 n).toNat = n :=
  Nat.mod_eq_of_lt (by omega)

/-- The size a host copies from `RSIZE` to `ILEN` (R10, R13). -/
theorem toNat_setWidth_size {n : Nat} (h : n ≤ 5) : ((BitVec.ofNat 3 n).setWidth 32).toNat = n := by
  rw [BitVec.toNat_setWidth_of_le (by decide), toNat_ofNat_size h]

/-- Byte `i` of `OB` after an encode of at least `i + 1` bytes (R14). -/
theorem obAt_encode_known {t : State} {l : List Byte} (hob : t.ob = (encodeResults l).ob) (h5 : l.length ≤ 5) {i : Nat}
    (hi : i < l.length) : t.obAt i = .known (l.getD i 0#8) := by
  rw [obAt_of_encode hob (by omega), producedByte, List.getElem?_eq_getElem hi, List.getD_eq_getElem _ _ hi]

theorem map_getD_range (l : List Byte) : (List.range l.length).map (fun i => l.getD i 0#8) = l := by
  refine List.ext_getElem (by simp) fun i _ hi => ?_
  simp [List.getD_eq_getElem?_getD, hi]

/-- A host that copies an encoding's bytes from `OB` to `IB` and its size to `ILEN` has it as the slice (R10, R11, R14). -/
theorem slice_of_encode {t u : State} {l : List Byte} (hob : t.ob = (encodeResults l).ob) (h1 : 1 ≤ l.length)
    (h5 : l.length ≤ 5) (hilen : u.ilen = (BitVec.ofNat 3 l.length).setWidth 32)
    (hib : ∀ i < l.length, t.obAt i = .known (u.ibAt i)) : u.ilen.toNat = l.length ∧ u.slice = .ok l := by
  have hlen : u.ilen.toNat = l.length := hilen ▸ toNat_setWidth_size h5
  have hbyte : ∀ i ∈ List.range l.length, u.ibAt i = l.getD i 0#8 := fun i hi => by
    have hlt := List.mem_range.1 hi
    exact Result.known.inj ((hib i hlt).symm.trans (obAt_encode_known hob h5 hlt))
  refine ⟨hlen, ?_⟩
  rw [slice_eq_map_ibAt (by omega) (by omega), hlen, List.map_congr_left hbyte, map_getD_range]

theorem contBit_last_of_wireForm {l : List Byte} (hw : wireForm l) (hne : l ≠ []) :
    contBit (l.getD (l.length - 1) 0#8) = false := by
  have hpos : 0 < l.length := List.length_pos_iff.2 hne
  rw [hw _ (by omega)]
  simp
  omega

/-- `decode_unsigned` of a sequence in wire form takes all its groups (R61, R63). -/
theorem decodeUnsigned_wireForm (b : Bool) {l : List Byte} (hw : wireForm l) (hne : l ≠ []) :
    decodeUnsigned b l = .ok (unsignedValue b (payload l)) := by
  rw [decodeUnsigned, scan_wire hw hne, contBit_last_of_wireForm hw hne]
  simp

/-- `decode_signed` of a sequence in wire form takes all its groups (R67, R69). -/
theorem decodeSigned_wireForm {l : List Byte} (hw : wireForm l) (hne : l ≠ []) :
    decodeSigned l = signedValue (payload l) l.length (l.getD (l.length - 1) 0#8) := by
  rw [decodeSigned, scan_wire hw hne]

theorem decuEffect_of_slice {b : Bool} {u : State} {l : List Byte} {v : Word} (hs : u.slice = .ok l)
    (hv : decodeUnsigned b l = .ok v) : decuEffect b u = .ok ⟨decodeResults v u.ilen.toNat, u.pos⟩ := by
  simp [decuEffect, hs, hv]

theorem decsEffect_of_slice {u : State} {l : List Byte} (hs : u.slice = .ok l) :
    decsEffect u = .ok ⟨decodeResults (decodeSigned l) u.ilen.toNat, u.pos⟩ := by
  simp [decsEffect, hs]

theorem exec_encu (b : Bool) (s : State) :
    exec (.encu b) s = .next (s.finish (.ok ⟨encodeResults (encodeUnsigned b s.vin), s.pos⟩)) := rfl

theorem exec_encs (s : State) :
    exec .encs s = .next (s.finish (.ok ⟨encodeResults (encodeSigned s.vin), s.pos⟩)) := rfl

/-- Settles O9: the loaded slice is ENCU's bytes (`slice_of_encode`), which are in wire form, so the scan takes all of them
(`decodeUnsigned_wireForm`), and their payload less the bias is the value (`unsignedValue_encodeUnsigned`, by induction on
ENCU's loop). -/
theorem unsignedRoundTrip : Obligations.UnsignedRoundTrip := by
  unfold Obligations.UnsignedRoundTrip
  intro b s
  obtain ⟨hwire, h1, h5⟩ := encodeUnsigned_wire b s.vin
  refine ⟨_, _, exec_encu b s, rfl, fun u hilen hib => ⟨_, exec_decu b u, ?_⟩⟩
  rw [toNat_ofNat_size h5] at hib
  obtain ⟨hlen, hslice⟩ := slice_of_encode rfl h1 h5 hilen hib
  rw [decuEffect_of_slice hslice (decodeUnsigned_wireForm b hwire (encodeUnsigned_ne_nil b s.vin)),
    unsignedValue_encodeUnsigned, hlen]
  exact ⟨rfl, rfl, rfl⟩

/-- Settles O16: the loaded slice is ENCS's bytes (`slice_of_encode`), the scan takes all of them (`decodeSigned_wireForm`), and
sign extension undoes the loss of the sign (`signedValue_encodeSigned`, by induction on ENCS's loops). -/
theorem signedRoundTrip : Obligations.SignedRoundTrip := by
  unfold Obligations.SignedRoundTrip
  intro s
  obtain ⟨hwire, h1, h5⟩ := encodeSigned_wire s.vin
  refine ⟨_, _, exec_encs s, rfl, fun u hilen hib => ⟨_, exec_decs u, ?_⟩⟩
  rw [toNat_ofNat_size h5] at hib
  obtain ⟨hlen, hslice⟩ := slice_of_encode rfl h1 h5 hilen hib
  rw [decsEffect_of_slice hslice, decodeSigned_wireForm hwire (encodeSigned_ne_nil s.vin), signedValue_encodeSigned, hlen]
  exact ⟨rfl, rfl, rfl⟩

/-! ### from a stream -/

/-- Bytes in wire form, read from a stream, are a varint (R46, R47). -/
theorem varintAt_of_wireForm {m : Memory} {p : Nat} {l : List Byte} (hw : wireForm l) (h1 : 1 ≤ l.length) (h5 : l.length ≤ 5)
    (hbytes : bytesAt m p l.length fun i => l.getD i 0#8) : varintAt m p l.length fun i => l.getD i 0#8 := by
  refine ⟨h1, h5, hbytes, fun i hi => ?_, contBit_last_of_wireForm hw (List.ne_nil_of_length_pos h1)⟩
  rw [hw i (by omega)]
  exact decide_eq_true hi

/-- An encoder's bytes, standing at a position of a stream (Q1, Q3). -/
theorem bytesAt_of_encode {t : State} {m : Memory} {p : Nat} {l : List Byte} (hob : t.ob = (encodeResults l).ob)
    (h5 : l.length ≤ 5) (h : ∀ i < l.length, ∃ x, t.obAt i = .known x ∧ memRead m (p + i) = .ok x) :
    bytesAt m p l.length fun i => l.getD i 0#8 := by
  intro i hi
  obtain ⟨x, hx, hread⟩ := h i hi
  obtain rfl : l.getD i 0#8 = x := Result.known.inj ((obAt_encode_known hob h5 hi).symm.trans hx)
  exact hread

theorem getLastD_eq_getD (l : List Byte) : l.getLastD 0#8 = l.getD (l.length - 1) 0#8 := by
  rw [List.getLastD_eq_getLast?, List.getLast?_eq_getElem?, List.getD_eq_getElem?_getD]

/-- A stream decode after a probe that counted an encoding's bytes: their value, their number, and `POS` past them (R75). -/
theorem finish_streamEffect_encode {u : State} {l : List Byte} (value : List Byte → Word) (h1 : 1 ≤ l.length)
    (hbytes : bytesAt u.stream u.pos.toNat l.length fun i => l.getD i 0#8) :
    let r := u.finish (streamEffect u (.ok l.length) value)
    r.status = .ok ∧ r.rval = .known (value l) ∧ r.rsize = .known (BitVec.ofNat 3 l.length) ∧
      r.pos.toNat = u.pos.toNat + l.length := by
  obtain ⟨hstatus, hrval, hrsize, -, hpos, -⟩ := finish_streamEffect_bytesAt value h1 hbytes
  rw [map_getD_range] at hrval
  exact ⟨hstatus, hrval, hrsize, hpos⟩

/-- Settles O28: ENCU's bytes on the stream are a varint (`varintAt_of_wireForm`), so the probe counts them all and the read phase
answers them (`finish_streamEffect_encode`); their payload less the bias is the value (`unsignedValue_encodeUnsigned`). -/
theorem unsignedStreamRoundTrip : Obligations.UnsignedStreamRoundTrip := by
  unfold Obligations.UnsignedStreamRoundTrip
  intro b s u
  obtain ⟨hwire, h1, h5⟩ := encodeUnsigned_wire b s.vin
  refine ⟨_, _, exec_encu b s, rfl, fun h => ⟨_, exec_dstru b u, ?_⟩⟩
  rw [toNat_ofNat_size h5] at h ⊢
  have hbytes := bytesAt_of_encode rfl h5 h
  have hprobe := probeUnsigned_varint (varintAt_of_wireForm hwire h1 h5 hbytes)
  have hresult := finish_streamEffect_encode (fun t => unsignedValue b (payload t)) h1 hbytes
  rw [hprobe]
  rwa [unsignedValue_encodeUnsigned] at hresult

/-- Settles O29: ENCS's bytes on the stream are a varint (`varintAt_of_wireForm`), and their sign-extended payload is the value
(`signedValue_encodeSigned`). -/
theorem signedStreamRoundTrip : Obligations.SignedStreamRoundTrip := by
  unfold Obligations.SignedStreamRoundTrip
  intro s u
  obtain ⟨hwire, h1, h5⟩ := encodeSigned_wire s.vin
  refine ⟨_, _, exec_encs s, rfl, fun h => ⟨_, exec_dstrs u, ?_⟩⟩
  rw [toNat_ofNat_size h5] at h ⊢
  have hbytes := bytesAt_of_encode rfl h5 h
  have hprobe := probeSigned_signedVarintAt (.inl (varintAt_of_wireForm hwire h1 h5 hbytes))
  have hresult := finish_streamEffect_encode
    (fun t => signedValue (payload t) t.length (t.getLastD 0#8)) h1 hbytes
  rw [hprobe]
  rwa [getLastD_eq_getD, signedValue_encodeSigned] at hresult

end Sys2Proof.Machine

/-! PROOFS. Completions: what a command that completes `OK` writes, by its kind, and the frame of `POS` (10_state.md,
60_exceptions.md). -/

namespace Sys2Proof

/-! ### the kinds of command, by the result registers they define (R17, R19) -/

def Instr.IsEncode (i : Instr) : Prop := i = .encs ∨ ∃ b, i = .encu b

def Instr.IsSliceDecode (i : Instr) : Prop := i = .decs ∨ ∃ b, i = .decu b

def Instr.IsPeek (i : Instr) : Prop := i = .peeku ∨ i = .peeks

def Instr.IsStreamDecode (i : Instr) : Prop := i = .dstrs ∨ ∃ b, i = .dstru b

end Sys2Proof

namespace Sys2Proof.Machine

/-! ### the effect of a command, said once -/

/-- What a command that raises nothing writes, by its kind (R14, R17, R60 to R77); `exec_effect` says that this is all. -/
inductive CommandEffect (i : Instr) (s : State) : Effect → Prop where
  | encode (l : List Byte) (hi : i.IsEncode) (hw : wireForm l) (h1 : 1 ≤ l.length) (h5 : l.length ≤ 5) :
      CommandEffect i s ⟨encodeResults l, s.pos⟩
  | sliceDecode (v : Word) (n : Nat) (hi : i.IsSliceDecode) (h1 : 1 ≤ n) (h5 : n ≤ 5) :
      CommandEffect i s ⟨decodeResults v n, s.pos⟩
  | peek (n : Nat) (hi : i.IsPeek) (h1 : 1 ≤ n) (h5 : n ≤ 5) :
      CommandEffect i s ⟨peekResults n, s.pos⟩
  | streamDecode (v : Word) (n : Nat) (hi : i.IsStreamDecode) (h1 : 1 ≤ n) (h5 : n ≤ 5) :
      CommandEffect i s ⟨decodeResults v n, BitVec.ofNat 32 (s.pos.toNat + n)⟩

theorem peekEffect_commandEffect {i : Instr} {s : State} (hi : i.IsPeek) {count : Except Failure Nat}
    (hcount : (∃ f, count = .error f) ∨ ∃ c, 1 ≤ c ∧ c ≤ 5 ∧ s.pos.toNat + c ≤ s.stream.slen.val ∧ count = .ok c)
    {e : Effect} (he : peekEffect s count = .ok e) : CommandEffect i s e := by
  rcases hcount with ⟨f, rfl⟩ | ⟨c, h1, h5, -, rfl⟩
  · cases he
  · cases he
    exact .peek c hi h1 h5

theorem streamEffect_commandEffect {i : Instr} {s : State} (hi : i.IsStreamDecode) {count : Except Failure Nat}
    {value : List Byte → Word}
    (hcount : (∃ f, count = .error f) ∨ ∃ c, 1 ≤ c ∧ c ≤ 5 ∧ s.pos.toNat + c ≤ s.stream.slen.val ∧ count = .ok c)
    {e : Effect} (he : streamEffect s count value = .ok e) : CommandEffect i s e := by
  rcases streamEffect_cases s value hcount with ⟨f, -, hf⟩ | ⟨c, v, h1, h5, -, -, hok⟩
  · cases hf.symm.trans he
  · cases hok.symm.trans he
    exact .streamDecode v c hi h1 h5

/-- Every command completes with a failure, or with the effect of its kind. -/
theorem exec_effect (i : Instr) (s : State) :
    ∃ o, exec i s = .next (s.finish o) ∧ ∀ e, o = .ok e → CommandEffect i s e := by
  cases i with
  | encu b =>
    obtain ⟨hw, h1, h5⟩ := encodeUnsigned_wire b s.vin
    refine ⟨_, exec_encu b s, fun e he => ?_⟩
    cases he
    exact .encode _ (.inr ⟨b, rfl⟩) hw h1 h5
  | encs =>
    obtain ⟨hw, h1, h5⟩ := encodeSigned_wire s.vin
    refine ⟨_, exec_encs s, fun e he => ?_⟩
    cases he
    exact .encode _ (.inl rfl) hw h1 h5
  | decu b =>
    refine ⟨_, exec_decu b s, fun e he => ?_⟩
    rcases decuEffect_cases b s with herr | ⟨v, h1, h5, hok⟩
    · cases herr.symm.trans he
    · cases hok.symm.trans he
      exact .sliceDecode v _ (.inr ⟨b, rfl⟩) h1 h5
  | decs =>
    refine ⟨_, exec_decs s, fun e he => ?_⟩
    rcases decsEffect_cases s with herr | ⟨v, h1, h5, hok⟩
    · cases herr.symm.trans he
    · cases hok.symm.trans he
      exact .sliceDecode v _ (.inl rfl) h1 h5
  | peeku => exact ⟨_, exec_peeku s, fun e => peekEffect_commandEffect (.inl rfl) (probeUnsigned_cases _ _)⟩
  | peeks => exact ⟨_, exec_peeks s, fun e => peekEffect_commandEffect (.inr rfl) (probeSigned_cases _ _)⟩
  | dstru b =>
    exact ⟨_, exec_dstru b s, fun e => streamEffect_commandEffect (.inr ⟨b, rfl⟩) (probeUnsigned_cases _ _)⟩
  | dstrs => exact ⟨_, exec_dstrs s, fun e => streamEffect_commandEffect (.inl rfl) (probeSigned_cases _ _)⟩

/-- Everything a command that goes on can have done: a failure, or the effect of its kind. -/
theorem exec_cases {i : Instr} {s t : State} (h : exec i s = .next t) :
    (∃ f, t = s.fail f) ∨ ∃ e, CommandEffect i s e ∧ t = s.finish (.ok e) := by
  obtain ⟨o, ho, heff⟩ := exec_effect i s
  obtain rfl : s.finish o = t := Host.Outcome.next.inj (ho.symm.trans h)
  cases o with
  | error f => exact .inl ⟨f, rfl⟩
  | ok e => exact .inr ⟨e, heff e rfl, rfl⟩

/-- Settles O34: a failure keeps `POS` (R84), and of the four effects only a stream decode's moves it (`exec_cases`). -/
theorem commandsKeepPosUnlessStreamDecode : Obligations.CommandsKeepPosUnlessStreamDecode := by
  unfold Obligations.CommandsKeepPosUnlessStreamDecode
  intro i s t hexec hcond
  rcases exec_cases hexec with ⟨f, rfl⟩ | ⟨e, heff, rfl⟩
  · rfl
  · cases heff with
    | encode | sliceDecode | peek => rfl
    | streamDecode v n hi =>
      rcases hcond with hfail | ⟨hdstrs, hdstru⟩
      · exact absurd rfl hfail
      · rcases hi with rfl | ⟨b, rfl⟩
        · exact absurd rfl hdstrs
        · exact absurd rfl (hdstru b)

/-- `RSIZE` after an encode is the number of known bytes of `OB` (R14). -/
theorem ob_of_encode {t : State} {l : List Byte} (hob : t.ob = (encodeResults l).ob) (h5 : l.length ≤ 5) :
    (∀ j < l.length, ∃ x, t.obAt j = .known x) ∧ ∀ j < 5, l.length ≤ j → t.obAt j = .unspec := by
  refine ⟨fun j hj => ⟨_, obAt_encode_known hob h5 hj⟩, fun j hj hlen => ?_⟩
  rw [obAt_of_encode hob hj, producedByte, List.getElem?_eq_none hlen]

/-- Settles O37: a failure leaves all seven UNSPEC (`failedAs_fail`); an effect is one of `exec_cases`, each with the results of its
kind, and the clauses for the other kinds do not speak of it. -/
theorem undefinedResultsBecomeUnspec : Obligations.UndefinedResultsBecomeUnspec := by
  unfold Obligations.UndefinedResultsBecomeUnspec
  intro i s t hexec
  rcases exec_cases hexec with ⟨f, rfl⟩ | ⟨e, heff, rfl⟩
  · have hfailed : (s.fail f).status ≠ .ok := f.status_ne_ok
    obtain ⟨-, hresults, -, -⟩ := failedAs_fail s f
    exact ⟨fun _ => hresults, fun hok => absurd hok hfailed, fun hok => absurd hok hfailed, fun hok => absurd hok hfailed⟩
  · refine ⟨fun hfail => absurd rfl hfail, ?_⟩
    cases heff with
    | encode l hi hw h1 h5 =>
      have hsize := toNat_ofNat_size h5
      have hob := ob_of_encode (t := s.finish (.ok ⟨encodeResults l, s.pos⟩)) rfl h5
      refine ⟨fun _ _ => ⟨rfl, _, rfl, by rwa [hsize]⟩, ?_⟩
      rcases hi with rfl | ⟨b, rfl⟩ <;> simp
    | sliceDecode v n hi =>
      refine ⟨?_, fun _ _ => ⟨obUnspec_of_ob rfl, ⟨v, rfl⟩, _, rfl⟩, ?_⟩ <;> rcases hi with rfl | ⟨b, rfl⟩ <;> simp
    | streamDecode v n hi =>
      refine ⟨?_, fun _ _ => ⟨obUnspec_of_ob rfl, ⟨v, rfl⟩, _, rfl⟩, ?_⟩ <;> rcases hi with rfl | ⟨b, rfl⟩ <;> simp
    | peek n hi =>
      refine ⟨?_, ?_, fun _ _ => ⟨rfl, obUnspec_of_ob rfl, _, rfl⟩⟩ <;> rcases hi with rfl | rfl <;> simp

/-- Settles O15: DECS fails for a bad length only (`decsEffect_eq_error_iff`), and a completion reports `OK` where nothing was
raised. -/
theorem decsAcceptsEverySliceOfOneToFive : Obligations.DecsAcceptsEverySliceOfOneToFive := by
  unfold Obligations.DecsAcceptsEverySliceOfOneToFive
  refine fun s => ⟨_, exec_decs s, ?_⟩
  rcases decsEffect_cases s with herr | ⟨v, h1, h5, hok⟩
  · obtain ⟨-, hbad⟩ := decsEffect_eq_error_iff.1 herr
    rw [herr]
    exact iff_of_false (Failure.status_ne_ok .invalidVarint) (by omega)
  · rw [hok]
    exact iff_of_true rfl ⟨h1, h5⟩

end Sys2Proof.Machine

/-! PROOFS. Steps: the host moves that go on, what moves `POS`, and the invariant (10_state.md, 20_memory.md,
70_reset_and_hazards.md). -/

namespace Sys2Proof.Machine

/-! ### the host moves that go on -/

theorem hostWrite_goes_on_iff {reg : Nat} {w : Word} {s : State} : (∃ t, hostWrite reg w s = .next t) ↔ reg ≤ 16 := by
  rcases hostWrite_cases reg w s with ⟨hreg, h⟩ | ⟨rfl, h⟩ | ⟨r, hr, -, h⟩
  · simp [h, hreg]
  · obtain ⟨o, ho⟩ := runCommand_finish (commandByte w) s
    simp [h, ho]
  · have hreg : ¬ 16 < reg := fun hlt => by cases hr.symm.trans (ofNumber_eq_none.2 hlt)
    simp [h, not_lt.1 hreg]

theorem hostRead_goes_on_iff {reg : Nat} {s : State} : (∃ t, hostRead reg s = .next t) ↔ reg ≤ 16 := by
  rcases hostRead_cases reg s with ⟨hreg, h⟩ | ⟨r, hr, h⟩
  · simp [h, hreg]
  · have hreg : ¬ 16 < reg := fun hlt => by cases hr.symm.trans (ofNumber_eq_none.2 hlt)
    simp [h, not_lt.1 hreg]

theorem pokeStream_of_lt {s : State} {p : Nat} (b : Byte) (h : p < s.stream.slen.val) :
    ∃ m, pokeByte s.stream p b = some m ∧ pokeStream p b s = .next { s with stream := m } := by
  refine ⟨_, if_pos h, ?_⟩
  simp [pokeStream, pokeByte, h]

theorem fetchStream_of_read {s : State} {p : Nat} {b : Byte} (h : memRead s.stream p = .ok b) :
    fetchStream p s = .next { s with replies := s.replies ++ [b.setWidth 32] } := by
  simp [fetchStream, h]

/-- Serving a move goes on exactly where the move has a meaning (R22, R31, R81). -/
theorem serve_goes_on_iff {move : HostMove} {s : State} : (∃ t, serve move s = .next t) ↔ move.meaningful s.stream := by
  cases move with
  | write reg w => exact hostWrite_goes_on_iff
  | read reg => exact hostRead_goes_on_iff
  | reset => exact iff_of_true ⟨_, rfl⟩ trivial
  | attach bytes =>
    by_cases h : bytes.length < 2 ^ 32
    · obtain ⟨m, hm⟩ := streamOf_of_lt h
      exact iff_of_true ⟨{ s with stream := m }, by simp [serve, attachStream, hm]⟩ h
    · have hm : streamOf bytes = none := dif_neg h
      exact iff_of_false (by simp [serve, attachStream, hm]) h
  | poke p b =>
    by_cases h : p < s.stream.slen.val
    · obtain ⟨m, -, hserve⟩ := pokeStream_of_lt b h
      exact iff_of_true ⟨_, hserve⟩ h
    · have hm : pokeByte s.stream p b = none := if_neg h
      exact iff_of_false (by simp [serve, pokeStream, hm]) h
  | fetch p =>
    rcases memRead_cases s.stream p with ⟨b, hread, hlt⟩ | ⟨hread, hle⟩
    · exact iff_of_true ⟨_, fetchStream_of_read hread⟩ hlt
    · exact iff_of_false (by simp [serve, fetchStream, hread]) (not_lt.2 hle)

/-- Settles O48: with no move pending a step answers the state itself; else it serves the next move (`step_pending`), which goes on
exactly where it is meaningful (`serve_goes_on_iff`). -/
theorem onlyMeaninglessHostMovesStop : Obligations.OnlyMeaninglessHostMovesStop := by
  unfold Obligations.OnlyMeaninglessHostMovesStop
  intro s
  unfold safeStep
  cases hp : s.pending with
  | nil => exact iff_of_true ⟨s, by simp [step, nextMove, hp]⟩ (by simp)
  | cons move rest =>
    rw [step_pending hp, serve_goes_on_iff]
    simp

/-! ### a change and a read of the stream by the host -/

/-- Settles O19: below `SLEN` the change is made (`pokeStream_of_lt`), and on a stream in canonical form it is of that byte only
(`pokeByte_some`). -/
theorem pokeChangesOneByte : Obligations.PokeChangesOneByte := by
  unfold Obligations.PokeChangesOneByte
  intro s p b rest hwf hp hlt
  obtain ⟨m, hpoke, hserve⟩ := pokeStream_of_lt (s := { s with pending := rest }) b hlt
  obtain ⟨-, hslen, -, hread⟩ := pokeByte_some hwf hpoke
  refine ⟨m, (step_pending hp).trans hserve, hslen, ?_, fun q hq => ?_⟩
  · rw [hread p, if_pos rfl]
  · rw [hread q, if_neg hq]

/-- Settles O20: below `SLEN` there is a byte to answer (`memRead_below`), and the answer is added to `replies` only
(`fetchStream_of_read`). -/
theorem fetchAnswersTheByte : Obligations.FetchAnswersTheByte := by
  unfold Obligations.FetchAnswersTheByte
  intro s p rest hp hlt
  have hread := memRead_below hlt
  have hserve := fetchStream_of_read (s := { s with pending := rest }) hread
  exact ⟨_, _, hread, (step_pending hp).trans hserve, rfl, rfl, rfl, ⟨rfl, rfl, rfl⟩, rfl, rfl, rfl, rfl, rfl, fun _ => rfl⟩

/-! ### what moves `POS` -/

/-- The number of a register is the only number it has (R6). -/
theorem number_of_ofNumber {n : Nat} {r : Reg} (h : Reg.ofNumber n = some r) : r.number = n := by
  have hn : n ≤ 16 := by
    by_contra hgt
    cases (ofNumber_eq_none.2 (not_le.1 hgt)).symm.trans h
  interval_cases n <;> cases h <;> rfl

theorem storeReg_pos_of_ne {r : Reg} (hr : r ≠ .pos) (s : State) (w : Word) : (s.storeReg r w).pos = s.pos := by
  cases r with
  | pos => exact absurd rfl hr
  | _ => rfl

/-- Everything a step can do whose move is a write of `CMD`: the failure of an illegal word, or the decoded command
(R52, R58). -/
theorem step_write_cmd_cases {s t : State} {w : Word} {rest : List HostMove} (hp : s.pending = .write 0 w :: rest)
    (h : step s = .next t) :
    t = ({ s with pending := rest } : State).fail .illegalCommand ∨
      ∃ i, decode (commandByte w) = .ok i ∧ exec i { s with pending := rest } = .next t := by
  have hrun : runCommand (commandByte w) { s with pending := rest } = .next t := (step_pending hp).symm.trans h
  cases hdec : decode (commandByte w) with
  | error e => exact .inl (Host.Outcome.next.inj ((runCommand_error hdec _).symm.trans hrun)).symm
  | ok i => exact .inr ⟨i, rfl, (runCommand_ok hdec _).symm.trans hrun⟩

/-- Settles O31: by the move served (`step_cases`). A store moves `POS` only where its register is `POS` (`storeReg_pos_of_ne`), a
command only where it is a stream decode that completes `OK` (O34), which adds `RSIZE` (O30); no other move but a reset
writes `POS`. -/
theorem posChangesOnlyBySeekResetOrStreamDecode : Obligations.PosChangesOnlyBySeekResetOrStreamDecode := by
  unfold Obligations.PosChangesOnlyBySeekResetOrStreamDecode
  intro s t hstep hmoved
  rcases step_cases hstep with ⟨-, rfl⟩ | ⟨move, rest, hp, hmove⟩
  · exact absurd rfl hmoved
  rcases hmove with ⟨w, rfl, -⟩ | ⟨reg, w, r, rfl, hr, -, rfl⟩ | ⟨reg, r, rfl, -, rfl⟩ | ⟨rfl, rfl⟩ | ⟨bytes, m, rfl, -, rfl⟩ |
    ⟨p, b, m, rfl, -, rfl⟩ | ⟨p, b, rfl, -, rfl⟩
  · rcases step_write_cmd_cases hp hstep with rfl | ⟨i, hdec, hexec⟩
    · exact absurd rfl hmoved
    have hdecode : t.status = .ok ∧ (i = .dstrs ∨ ∃ b, i = .dstru b) := by
      by_contra hnot
      rw [not_and_or, not_or, not_exists] at hnot
      exact hmoved (commandsKeepPosUnlessStreamDecode i { s with pending := rest } t hexec hnot)
    obtain ⟨hok, hi⟩ := hdecode
    obtain ⟨n, hrsize, hpos, -⟩ := positionsDoNotWrap.1 _ t i hi hexec hok
    exact .inr (.inr ⟨w, rest, i, n, hp, hdec, hi, hok, hrsize, hpos⟩)
  · by_cases hpos : r = .pos
    · subst hpos
      obtain rfl : 16 = reg := number_of_ofNumber hr
      exact .inl ⟨w, rest, hp, rfl⟩
    · exact absurd (storeReg_pos_of_ne hpos _ w) hmoved
  · exact absurd rfl hmoved
  · exact .inr (.inl ⟨rest, hp, rfl⟩)
  all_goals exact absurd rfl hmoved

/-! ### the invariant -/

/-- The part of the invariant that speaks of `STATUS` and the result registers; `inv_iff` ties it to `State.Inv`. -/
def State.ResultsInv (s : State) : Prop :=
  (s.status ≠ .ok → s.resultsUnspec) ∧
  (s.status = .ok → ∃ n, 1 ≤ n ∧ n ≤ 5 ∧ s.rsize = .known (BitVec.ofNat 3 n) ∧
    (s.obUnspec ∨ s.rval = .unspec ∧ s.obWellFormed n))

theorem inv_iff (s : State) : s.Inv ↔ s.stream.wf = true ∧ s.ResultsInv := Iff.rfl

/-- A move that writes neither `STATUS` nor a result register keeps their part of the invariant. -/
theorem resultsInv_of_eq {s t : State} (h : s.ResultsInv) (hstatus : t.status = s.status) (hrval : t.rval = s.rval)
    (hrsize : t.rsize = s.rsize) (hob : t.ob = s.ob) : t.ResultsInv := by
  simpa only [State.ResultsInv, State.resultsUnspec, State.obUnspec, State.obWellFormed, State.obAt, hstatus, hrval, hrsize,
    hob] using h

theorem resultsInv_of_resultsUnspec {t : State} (hstatus : t.status ≠ .ok) (h : t.resultsUnspec) : t.ResultsInv :=
  ⟨fun _ => h, fun hok => absurd hok hstatus⟩

theorem resultsInv_fail (s : State) (f : Failure) : (s.fail f).ResultsInv :=
  resultsInv_of_resultsUnspec f.status_ne_ok ⟨rfl, rfl, obUnspec_of_ob rfl⟩

/-- The effect of each kind of command leaves results of the invariant's form (R13, R14, R19). -/
theorem resultsInv_finish {i : Instr} {s : State} {e : Effect} (h : CommandEffect i s e) :
    (s.finish (.ok e)).ResultsInv := by
  refine ⟨fun hfail => absurd rfl hfail, fun _ => ?_⟩
  cases h with
  | encode l hi hw h1 h5 => exact ⟨_, h1, h5, rfl, .inr ⟨rfl, obWellFormed_of_wire rfl hw⟩⟩
  | sliceDecode v n hi h1 h5 => exact ⟨n, h1, h5, rfl, .inl (obUnspec_of_ob rfl)⟩
  | peek n hi h1 h5 => exact ⟨n, h1, h5, rfl, .inl (obUnspec_of_ob rfl)⟩
  | streamDecode v n hi h1 h5 => exact ⟨n, h1, h5, rfl, .inl (obUnspec_of_ob rfl)⟩

/-- Every completion of a command keeps the invariant. -/
theorem inv_of_exec {i : Instr} {s t : State} (hwf : s.stream.wf = true) (h : exec i s = .next t) : t.Inv := by
  rw [inv_iff]
  rcases exec_cases h with ⟨f, rfl⟩ | ⟨e, heff, rfl⟩
  · exact ⟨hwf, resultsInv_fail s f⟩
  · exact ⟨hwf, resultsInv_finish heff⟩

/-- Settles O49: by the move served (`step_cases`). A command's completion has results of the invariant's form whatever stood there
before (`inv_of_exec`, `resultsInv_fail`); a reset leaves them UNSPEC; every other move keeps them (`resultsInv_of_eq`). An
attached stream and a changed one are in canonical form (`streamOf_some`, `pokeByte_some`). -/
theorem everyStepKeepsTheInvariant : Obligations.EveryStepKeepsTheInvariant := by
  unfold Obligations.EveryStepKeepsTheInvariant
  intro s t hinv hstep
  obtain ⟨hwf, hresults⟩ := (inv_iff s).1 hinv
  rcases step_cases hstep with ⟨-, rfl⟩ | ⟨move, rest, hp, hmove⟩
  · exact hinv
  rcases hmove with ⟨w, rfl, -⟩ | ⟨reg, w, r, rfl, -, -, rfl⟩ | ⟨reg, r, rfl, -, rfl⟩ | ⟨rfl, rfl⟩ | ⟨bytes, m, rfl, hm, rfl⟩ |
    ⟨p, b, m, rfl, hm, rfl⟩ | ⟨p, b, rfl, -, rfl⟩
  · rcases step_write_cmd_cases hp hstep with rfl | ⟨i, -, hexec⟩
    · exact ⟨hwf, resultsInv_fail _ _⟩
    · exact inv_of_exec (s := { s with pending := rest }) hwf hexec
  · rw [inv_iff, State.storeReg_stream]
    exact ⟨hwf, resultsInv_of_eq hresults (State.storeReg_status _ r w) (State.storeReg_rval _ r w)
      (State.storeReg_rsize _ r w) (State.storeReg_ob _ r w)⟩
  · exact ⟨hwf, resultsInv_of_eq hresults rfl rfl rfl rfl⟩
  · exact ⟨hwf, resultsInv_of_resultsUnspec Status.noConfusion (resultsUnspec_resetCore _)⟩
  · obtain ⟨-, hmwf, -⟩ := streamOf_some hm
    exact ⟨hmwf, resultsInv_of_eq hresults rfl rfl rfl rfl⟩
  · obtain ⟨-, -, hmwf, -⟩ := pokeByte_some hwf hm
    exact ⟨hmwf, resultsInv_of_eq hresults rfl rfl rfl rfl⟩
  · exact ⟨hwf, resultsInv_of_eq hresults rfl rfl rfl rfl⟩

/-! ### the reset state -/

theorem resultsUnspec_reset : State.reset.resultsUnspec := ⟨rfl, rfl, obUnspec_of_ob rfl⟩

/-- Settles O46: the fields of the reset state; `IB` reads 0 at each byte (`ibAt_of_reset_ib`). -/
theorem resetStateHasTheTableValues : Obligations.ResetStateHasTheTableValues := by
  unfold Obligations.ResetStateHasTheTableValues
  exact ⟨rfl, rfl, rfl, fun _ hi => ibAt_of_reset_ib rfl hi, resultsUnspec_reset, rfl⟩

/-- Settles O50: no stream is attached, and every result register is UNSPEC beside a `STATUS` other than `OK`. -/
theorem resetMeetsTheInvariant : Obligations.ResetMeetsTheInvariant := by
  unfold Obligations.ResetMeetsTheInvariant
  exact ⟨memory_empty_wf, resultsInv_of_resultsUnspec (by decide) resultsUnspec_reset⟩

/-- Settles O47: after the reset `ILEN` is 0, the first of the causes of DECU's and DECS's `InvalidVarint`
(`exec_status_iff_cause`). -/
theorem decodeRightAfterResetFails : Obligations.DecodeRightAfterResetFails := by
  unfold Obligations.DecodeRightAfterResetFails
  intro s t u i rest hi hp hstep hexec
  obtain rfl := Host.Outcome.next.inj ((step_reset hp).symm.trans hstep)
  exact (exec_status_iff_cause hexec .invalidVarint).2 (.inl ⟨hi, .inl rfl⟩)

/-! ### the writes of a SLICE line -/

/-- A run's first step (R5). -/
theorem run_succ {s t : State} (h : step s = .next t) (n : Nat) :
    Host.Core.run core (n + 1) s = Host.Core.run core n t := by
  have hcore : core.step s = .next t := h
  simp only [Host.Core.run, hcore]

theorem step_write_ilen {s : State} {w : Word} {rest : List HostMove} (hp : s.pending = .write 3 w :: rest) :
    step s = .next { s with pending := rest, ilen := w } :=
  (step_pending hp).trans (hostWrite_number (r := .ilen) (by decide) w _)

theorem step_write_ib {s : State} {k : Nat} (hk : k < 5) {b : Byte} {rest : List HostMove}
    (hp : s.pending = .write (4 + k) (b.setWidth 32) :: rest) :
    step s = .next { s with pending := rest, ib := s.ib.set k b } := by
  have hbyte : (b.setWidth 32).setWidth 8 = b := by simp
  have hstore := hostWrite_number (r := .ib ⟨k, hk⟩) (by simp) (b.setWidth 32) { s with pending := rest }
  refine (step_pending hp).trans (hstore.trans ?_)
  simp only [State.storeReg, hbyte]

/-- The writes of `IB` a `SLICE` line makes, from register `IB[k]` on: each byte is put in its place, and nothing but `IB` and
the list of moves changes (R29, R56). -/
theorem run_sliceWrites {l : List Byte} {k : Nat} {s : State} (hk : k + l.length ≤ 5)
    (hp : s.pending = sliceWrites (4 + k) l) :
    ∃ ib : Vector Byte 5, Host.Core.run core (sliceWrites (4 + k) l).length s = .next { s with pending := [], ib := ib } ∧
      ∀ i (hi : i < 5), ib[i] = if k ≤ i then l[i - k]?.getD s.ib[i] else s.ib[i] := by
  induction l generalizing k s with
  | nil =>
    have hs : s = { s with pending := [] } := by rw [← show s.pending = [] from hp]
    exact ⟨s.ib, congrArg Host.Outcome.next hs, by simp⟩
  | cons b rest ih =>
    rw [List.length_cons] at hk
    obtain ⟨ib, hrun, hib⟩ := ih (k := k + 1) (s := { s with pending := sliceWrites (4 + (k + 1)) rest, ib := s.ib.set k b })
      (by omega) rfl
    refine ⟨ib, (run_succ (step_write_ib (by omega) hp) _).trans hrun, fun i hi => ?_⟩
    rw [hib i hi]
    obtain hlt | rfl | hgt := Nat.lt_trichotomy i k
    · simp [Nat.not_le.2 hlt, show ¬ k + 1 ≤ i by omega, show k ≠ i by omega]
    · simp
    · obtain ⟨j, rfl⟩ : ∃ j, i = k + 1 + j := ⟨i - (k + 1), by omega⟩
      simp [show k + 1 + j - k = j + 1 by omega, show k ≤ k + 1 + j by omega, show k ≠ k + 1 + j by omega]

/-- Settles O44: the line's first move writes `ILEN` (`step_write_ilen`), the others the first five bytes of `IB`, one after
another (`run_sliceWrites`, by induction on the bytes). -/
theorem sliceLineLoadsTheOperand : Obligations.SliceLineLoadsTheOperand := by
  unfold Obligations.SliceLineLoadsTheOperand
  intro s bytes hlen
  let moves := sliceWrites (4 + 0) (bytes.take Config.maxLen)
  let start : State := { s with pending := moves, ilen := BitVec.ofNat 32 bytes.length }
  obtain ⟨ib, hrun, hib⟩ := run_sliceWrites (k := 0) (s := start) (l := bytes.take Config.maxLen)
    (by simp [Config.maxLen]) rfl
  have hstep : step { s with pending := asmMoves (.slice bytes) } = .next start := step_write_ilen rfl
  refine ⟨_, (run_succ hstep _).trans hrun, rfl, Nat.mod_eq_of_lt hlen, fun i hi => ?_, rfl, rfl, rfl, rfl, rfl, rfl, rfl, rfl⟩
  have hget := ib_getElem { start with pending := [], ib := ib } hi
  rw [← hget, hib i hi, ← ib_getElem s hi]
  by_cases h : i < bytes.length
  · simp [h, hi, Config.maxLen]
  · simp [h, start]

end Sys2Proof.Machine

/-! PROOFS. Minimality: no encoding has a redundant last byte, and none is longer than another encoding of its value
(30_encoding.md, 40_unsigned_codec.md, 41_signed_codec.md). -/

namespace Sys2Proof.Machine

/-! ### unsigned -/

/-- `usize` is the least number of groups that hold the value (R112). -/
theorem usize_le_iff {v : Word} {k : Nat} (h1 : 1 ≤ k) : usize v ≤ k ↔ v.toNat < 2 ^ (7 * k) := by
  have hv := v.isLt
  obtain h5 | h5 := Nat.lt_or_ge k 5
  · unfold usize
    interval_cases k <;> split_ifs <;> omega
  · have hpow : 2 ^ 32 ≤ 2 ^ (7 * k) := Nat.pow_le_pow_right (by decide) (by omega)
    exact iff_of_true ((usize_le_five v).trans h5) (by omega)

/-- Of several groups the last is not 0: it holds the value's highest bit (R61 (c)). -/
theorem encuByte_last_ne_zero {v : Word} (h : 1 < usize v) : encuByte v (usize v - 1) ≠ 0#8 := by
  intro hzero
  have hmany : ¬ v.toNat < 2 ^ (7 * (usize v - 1)) := fun hlt => by
    have := (usize_le_iff (by omega)).2 hlt
    omega
  have hfits : v.toNat < 2 ^ (7 * usize v) := (usize_le_iff (by omega)).1 le_rfl
  have hpow : 2 ^ (7 * usize v) = 2 ^ 7 * 2 ^ (7 * (usize v - 1)) := by
    rw [← Nat.pow_add]
    congr 1
    omega
  have hgroup : groupOf (encuByte v (usize v - 1)) = v.toNat / 2 ^ (7 * (usize v - 1)) := by
    rw [encuByte, if_neg (by omega), groupOf_low7, BitVec.toNat_ushiftRight, Nat.shiftRight_eq_div_pow]
    exact Nat.mod_eq_of_lt ((Nat.div_lt_iff_lt_mul (Nat.two_pow_pos _)).2 (hpow ▸ hfits))
  have hpos := Nat.div_pos (not_lt.1 hmany) (Nat.two_pow_pos _)
  rw [← hgroup, hzero] at hpos
  exact absurd hpos (by decide)

/-- Settles O7: ENCU's bytes are in wire form (`encodeUnsigned_wire`, `obWellFormed_of_wire`), and the last of several holds the
value's highest bit (`encuByte_last_ne_zero`). -/
theorem encuIsWellFormedAndMinimal : Obligations.EncuIsWellFormedAndMinimal := by
  unfold Obligations.EncuIsWellFormedAndMinimal
  intro b s
  obtain ⟨hwire, h1, h5⟩ := encodeUnsigned_wire b s.vin
  refine ⟨_, _, exec_encu b s, h1, h5, rfl, obWellFormed_of_wire rfl hwire, fun hmany => ?_⟩
  rw [obAt_of_encode rfl (by omega), producedByte_encodeUnsigned]
  rw [length_encodeUnsigned] at hmany ⊢
  rw [if_pos (by omega)]
  exact fun hzero => encuByte_last_ne_zero hmany (Result.known.inj hzero)

/-- The payload of the first `k` bytes has `7k` bits. -/
theorem payload_map_range_lt (t : Nat → Byte) (k : Nat) : payload ((List.range k).map t) < 2 ^ (7 * k) := by
  simpa using payload_lt ((List.range k).map t)

/-- Where DECU gives a value, it is that of a varint no longer than the slice (R63). -/
theorem decu_value {b : Bool} {u r : State} {v : Word} (hexec : exec (.decu b) u = .next r) (hok : r.status = .ok)
    (hval : r.rval = .known v) :
    ∃ k, 1 ≤ k ∧ k ≤ u.ilen.toNat ∧ v = unsignedValue b (payload ((List.range k).map u.ibAt)) := by
  obtain rfl := Host.Outcome.next.inj ((exec_decu b u).symm.trans hexec)
  rcases decuEffect_cases b u with herr | ⟨x, h1, h5, -⟩
  · rw [herr] at hok
    exact absurd hok (Failure.status_ne_ok .invalidVarint)
  rcases continued_or_first_terminator u.ibAt u.ilen.toNat with hcont | ⟨k, hk1, hk, hcont, hterm⟩
  · rw [decuEffect_invalid b (.inr (.inr hcont))] at hok
    exact absurd hok (Failure.status_ne_ok .invalidVarint)
  · rw [decuEffect_of_terminator b h5 hk1 hk hcont hterm] at hval
    exact ⟨k, hk1, hk, by rw [unsignedValue_payload b u.ibAt (hk.trans h5)]; exact (Result.known.inj hval).symm⟩

/-- Settles O10: a slice DECU decodes to `VIN` has a varint whose payload is `VIN` plus the bias modulo `2^32` (`decu_value`), so
that sum fits the varint's groups, and ENCU emits the least number of groups it fits in (`usize_le_iff`). -/
theorem encuEncodingIsShortest : Obligations.EncuEncodingIsShortest := by
  unfold Obligations.EncuEncodingIsShortest
  intro b s u r hexec hok hval
  obtain ⟨-, -, h5⟩ := encodeUnsigned_wire b s.vin
  obtain ⟨k, h1, hk, hvin⟩ := decu_value hexec hok hval
  have hsum : s.vin + biasValue b = BitVec.ofNat 32 (payload ((List.range k).map u.ibAt)) := by
    rw [hvin, unsignedValue, BitVec.sub_add_cancel]
  have hfits : (s.vin + biasValue b).toNat < 2 ^ (7 * k) := by
    rw [hsum]
    exact (Nat.mod_le _ _).trans_lt (payload_map_range_lt _ _)
  refine ⟨_, _, exec_encu b s, rfl, ?_⟩
  rw [toNat_ofNat_size h5, length_encodeUnsigned]
  exact ((usize_le_iff h1).2 hfits).trans hk

/-! ### signed -/

/-- The integers that fit `k + 1` groups in two's complement (R112). -/
def FitsGroups (s : Int) (k : Nat) : Prop := -(64 * 128 ^ k) ≤ s ∧ s < 64 * 128 ^ k

/-- `ssize` is the least number of groups that hold the value with its sign (R112). -/
theorem ssize_le_iff {s : Int} (hs : IsSint32 s) (k : Nat) : ssize s ≤ k + 1 ↔ FitsGroups s k := by
  obtain ⟨hlo, hhi⟩ := hs
  obtain h4 | h4 := Nat.lt_or_ge k 4
  · unfold ssize FitsGroups
    interval_cases k <;> split_ifs <;> omega
  · have hpow : (128 : Int) ^ 4 ≤ 128 ^ k := pow_le_pow_right₀ (by decide) h4
    exact iff_of_true ((ssize_le_five s).trans (by omega)) ⟨by omega, by omega⟩

/-- The last group is the first that holds, with its sign, all that is left of the value (R66). -/
theorem shiftRight_fits_iff {s : Int} (hs : IsSint32 s) {i : Nat} (hi : i < ssize s) :
    (-64 ≤ s >>> (7 * i) ∧ s >>> (7 * i) ≤ 63) ↔ i + 1 = ssize s := by
  induction i generalizing s with
  | zero =>
    rw [ssize_eq_ite hs]
    have := one_le_ssize (s / 128)
    split_ifs with hfits <;> simp [hfits]
    omega
  | succ i ih =>
    have hshift : s >>> (7 * (i + 1)) = (s / 128) >>> (7 * i) := by
      rw [Nat.mul_succ, Nat.add_comm, Int.shiftRight_add, Int.shiftRight_eq_div_pow s 7]
      rfl
    have hsize := ssize_eq_ite hs
    split_ifs at hsize
    · omega
    · rw [hshift, ih hs.div_128 (by omega), hsize, Nat.add_left_inj]

theorem signBit_withCont (b : Byte) : signBit (withCont b) = signBit b := by
  revert b
  decide

/-- Bit 6 of a group that holds the whole of an integer is its sign (R67 (c)). -/
theorem signBit_low7Int_of_fits {q : Int} (h : -64 ≤ q ∧ q ≤ 63) : signBit (low7Int q) = true ↔ q < 0 := by
  rw [signBit_low7Int, decide_eq_true_iff]
  omega

/-- Where 7 bits do not hold an integer `r`, the group above is not the mere sign extension of the one that stands for its low 7
bits (R67 (d)). -/
theorem next_group_not_redundant {r : Int} (hmore : ¬ (-64 ≤ r ∧ r ≤ 63)) (hlast : -64 ≤ r / 128 ∧ r / 128 ≤ 63) :
    ¬ (low7Int (r / 128) = 0x00#8 ∧ signBit (low7Int r) = false) ∧
      ¬ (low7Int (r / 128) = 0x7F#8 ∧ signBit (low7Int r) = true) := by
  have hgroup := groupOf_low7Int (r / 128)
  rw [signBit_low7Int, decide_eq_false_iff_not, decide_eq_true_iff]
  constructor <;> rintro ⟨hbyte, hsign⟩ <;> rw [hbyte] at hgroup
  · have hzero : groupOf 0x00#8 = 0 := rfl
    omega
  · have hones : groupOf 0x7F#8 = 127 := rfl
    omega

theorem signBit_encsByte_last {s : Int} (hs : IsSint32 s) : signBit (encsByte s (ssize s - 1)) = true ↔ s < 0 := by
  have h1 := one_le_ssize s
  have hfits := (shiftRight_fits_iff hs (i := ssize s - 1) (by omega)).2 (by omega)
  have hsign := Int.ediv_nonneg_iff_of_pos (a := s) (b := 2 ^ (7 * (ssize s - 1))) (by positivity)
  rw [encsByte, if_neg (by omega), signBit_low7Int_of_fits hfits, Int.shiftRight_eq_div_pow]
  simpa using not_congr hsign

/-- The last of several bytes is not the mere sign extension of the one before it (R67 (d)). -/
theorem encsByte_last_not_redundant {s : Int} (hs : IsSint32 s) (hmany : 1 < ssize s) :
    ¬ (encsByte s (ssize s - 1) = 0x00#8 ∧ signBit (encsByte s (ssize s - 2)) = false) ∧
      ¬ (encsByte s (ssize s - 1) = 0x7F#8 ∧ signBit (encsByte s (ssize s - 2)) = true) := by
  have hnext : s >>> (7 * (ssize s - 1)) = s >>> (7 * (ssize s - 2)) / 128 := by
    rw [show 7 * (ssize s - 1) = 7 * (ssize s - 2) + 7 by omega, Int.shiftRight_add, Int.shiftRight_eq_div_pow _ 7]
    rfl
  have hlast : encsByte s (ssize s - 1) = low7Int (s >>> (7 * (ssize s - 2)) / 128) := hnext ▸ if_neg (by omega)
  have hbefore : encsByte s (ssize s - 2) = withCont (low7Int (s >>> (7 * (ssize s - 2)))) := if_pos (by omega)
  have hfits := (shiftRight_fits_iff hs (i := ssize s - 1) (by omega)).2 (by omega)
  have hmore := mt (shiftRight_fits_iff hs (i := ssize s - 2) (by omega)).1 (by omega)
  rw [hlast, hbefore, signBit_withCont]
  exact next_group_not_redundant hmore (hnext ▸ hfits)

/-- Settles O12: ENCS's bytes are in wire form (`encodeSigned_wire`); the last group holds all that is left of the value
(`shiftRight_fits_iff`), so its bit 6 is the sign (`signBit_encsByte_last`), and of what stood before it 7 bits were too few, so
it is not redundant (`encsByte_last_not_redundant`). -/
theorem encsIsWellFormedAndMinimal : Obligations.EncsIsWellFormedAndMinimal := by
  unfold Obligations.EncsIsWellFormedAndMinimal
  intro s
  have hs := isSint32_toInt s.vin
  have hone := one_le_ssize s.vin.toInt
  have hfive := ssize_le_five s.vin.toInt
  obtain ⟨hwire, h1, h5⟩ := encodeSigned_wire s.vin
  have hob : ∀ i < ssize s.vin.toInt, State.obAt (s.finish (.ok ⟨encodeResults (encodeSigned s.vin), s.pos⟩)) i =
      .known (encsByte s.vin.toInt i) := fun i hi => by
    rw [obAt_of_encode rfl (by omega), producedByte_encodeSigned, if_pos hi]
  refine ⟨_, _, encsByte s.vin.toInt (ssize s.vin.toInt - 1), exec_encs s, h1, h5, rfl, obWellFormed_of_wire rfl hwire, ?_⟩
  rw [length_encodeSigned]
  exact ⟨hob _ (by omega), signBit_encsByte_last hs,
    fun hmany => ⟨_, hob _ (by omega), encsByte_last_not_redundant hs hmany⟩⟩

/-- Bit 6 of the last of `n + 1` bytes is the highest bit of their payload (R46, R68). -/
theorem signBit_last_iff {l : List Byte} {n : Nat} (hl : l.length = n + 1) :
    signBit (l.getD n 0#8) = true ↔ 64 * 128 ^ n ≤ payload l := by
  have hbyte : ∀ b : Byte, signBit b = true ↔ 64 ≤ groupOf b := by decide
  induction n generalizing l with
  | zero =>
    obtain ⟨b, rfl⟩ := List.length_eq_one_iff.1 hl
    simpa [payload] using hbyte b
  | succ n ih =>
    obtain ⟨b, rest, rfl⟩ := List.exists_cons_of_length_eq_add_one hl
    have hb := groupOf_lt b
    have hrest : signBit (rest.getD n 0#8) = true ↔ 64 * 128 ^ n ≤ payload rest := ih (by simpa using hl)
    rw [List.getD_cons_succ, payload, pow_succ]
    exact hrest.trans (by omega)

/-- Sign extension of `n + 1` groups gives an integer that fits them (R68). -/
theorem signExtend_fits {l : List Byte} {n : Nat} (hl : l.length = n + 1) :
    FitsGroups (signExtend (payload l) (n + 1) (l.getD n 0#8)) n := by
  have hlt : payload l < 128 * 128 ^ n := by
    have := payload_lt l
    rwa [hl, pow_mul, pow_succ', show (2 ^ 7 : Nat) = 128 from rfl] at this
  have hiff := signBit_last_iff hl
  have hpow : 2 ^ (Config.group * (n + 1)) = 128 * 128 ^ n := by
    rw [Config.group, pow_mul, pow_succ', show (2 ^ 7 : Nat) = 128 from rfl]
  zify at hlt hiff
  unfold FitsGroups
  cases hs : signBit (l.getD n 0#8) with
  | true =>
    have hge := hiff.1 hs
    rw [signExtend, if_pos hs, hpow, Nat.mod_eq_of_lt (by exact_mod_cast hlt)]
    push_cast
    omega
  | false =>
    have hnot := mt hiff.2 (ne_true_of_eq_false hs)
    rw [signExtend_nonnegative hs]
    omega

/-- Reduction to 32 bits does not lengthen an integer. -/
theorem ssize_ofInt_le {x : Int} {n : Nat} (h : FitsGroups x n) : ssize (BitVec.ofInt 32 x).toInt ≤ n + 1 := by
  obtain h4 | h4 := Nat.lt_or_ge n 4
  · have hself : (BitVec.ofInt 32 x).toInt = x := by
      obtain ⟨hlo, hhi⟩ := h
      have hpow : (128 : Int) ^ n ≤ 128 ^ 3 := pow_le_pow_right₀ (by decide) (by omega)
      exact BitVec.toInt_ofInt_eq_self (by decide) (by omega) (by omega)
    rw [hself]
    exact (ssize_le_iff (hself ▸ isSint32_toInt _) n).2 h
  · exact (ssize_le_five _).trans (by omega)

/-- The value of a slice fits the groups the scan consumed, which are no more than the slice's bytes (R68, R69). -/
theorem ssize_decodeSigned_le {l : List Byte} (hne : l ≠ []) : ssize (decodeSigned l).toInt ≤ l.length := by
  obtain ⟨j, hj, hcont, hend⟩ := scan_end_exists l hne
  have hlast : (l.take (j + 1)).getD j 0#8 = l.getD j 0#8 := by simp [List.getD_eq_getElem?_getD]
  rw [decodeSigned, scan_eq l j hj hcont hend, ← hlast]
  exact (ssize_ofInt_le (signExtend_fits (by simp; omega))).trans hj

/-- Settles O17: the value DECS gives a slice fits the slice's groups (`ssize_decodeSigned_le`), and ENCS emits the least number of
groups it fits in (`length_encodeSigned`, `ssize_le_iff`). -/
theorem encsEncodingIsShortest : Obligations.EncsEncodingIsShortest := by
  unfold Obligations.EncsEncodingIsShortest
  intro s u r hexec hok hval
  obtain ⟨-, -, h5⟩ := encodeSigned_wire s.vin
  refine ⟨_, _, exec_encs s, rfl, ?_⟩
  rw [toNat_ofNat_size h5, length_encodeSigned]
  obtain rfl := Host.Outcome.next.inj ((exec_decs u).symm.trans hexec)
  rcases slice_cases u with ⟨hbad, -⟩ | ⟨h1, -, hslice, hlen⟩
  · rw [decsEffect_invalid hbad] at hok
    exact absurd hok (Failure.status_ne_ok .invalidVarint)
  · rw [decsEffect_of_slice hslice] at hval
    rw [← Result.known.inj hval]
    exact (ssize_decodeSigned_le (List.ne_nil_of_length_pos (by omega))).trans_eq hlen

end Sys2Proof.Machine

/-! PROOFS. The stream commands against each other and against the register decoders (42_stream_probe.md), and what a command's
result depends on (10_state.md, 20_memory.md). -/

namespace Sys2Proof.Machine

/-! ### the probe -/

/-- The probe answers what stands at the position, a varint or five bytes without a terminator (R72). -/
theorem probe_eq_ok_iff {m : Memory} {p c : Nat} {last : Byte} :
    probe m p = .ok (c, last) ↔
      (∃ t, varintAt m p c t ∧ last = t (c - 1)) ∨ (c = 5 ∧ ∃ t, unterminatedAt m p t ∧ last = t 4) := by
  constructor
  · intro h
    rcases position_cases m p with ⟨c', t, hv⟩ | ⟨t, hu⟩ | ⟨c', t, he⟩
    · cases (probe_varint hv).symm.trans h
      exact .inl ⟨t, hv, rfl⟩
    · cases (probe_unterminated hu).symm.trans h
      exact .inr ⟨rfl, t, hu, rfl⟩
    · cases (probe_endsInside he).symm.trans h
  · rintro (⟨t, hv, rfl⟩ | ⟨rfl, t, hu, rfl⟩)
    · exact probe_varint hv
    · exact probe_unterminated hu

/-- The probe's one failure (R72, R82). -/
theorem probe_eq_error_iff {m : Memory} {p : Nat} {f : Failure} :
    probe m p = .error f ↔ f = .streamEnd ∧ ∃ c t, endsInside m p c t := by
  constructor
  · intro h
    rcases position_cases m p with ⟨c, t, hv⟩ | ⟨t, hu⟩ | ⟨c, t, he⟩
    · cases (probe_varint hv).symm.trans h
    · cases (probe_unterminated hu).symm.trans h
    · exact ⟨(Except.error.inj ((probe_endsInside he).symm.trans h)).symm, c, t, he⟩
  · rintro ⟨rfl, c, t, he⟩
    exact probe_endsInside he

/-- Settles O25: one of the three stands at every position (`position_cases`), and since the probe answers each differently
(`probe_varint`, `probe_unterminated`, `probe_endsInside`), no two stand there together. -/
theorem probeOutcomesAreExclusive : Obligations.ProbeOutcomesAreExclusive := by
  unfold Obligations.ProbeOutcomesAreExclusive
  refine fun m p => ⟨position_cases m p, fun c t hv => ⟨?unterminated, ?ends, ?unique⟩, ?unterminatedEnds,
    fun c last => probe_eq_ok_iff, fun f => probe_eq_error_iff⟩
  case unterminated =>
    rintro ⟨t', hu⟩
    have hprobe := (probe_varint hv).symm.trans (probe_unterminated hu)
    obtain ⟨-, hlast⟩ := Prod.mk.inj (Except.ok.inj hprobe)
    obtain ⟨-, -, -, -, hterm⟩ := hv
    have hcont : contBit (t' 4) = true := hu.2 4 (by decide)
    rw [← hlast, hterm] at hcont
    cases hcont
  case ends =>
    rintro ⟨c', t', he⟩
    cases (probe_varint hv).symm.trans (probe_endsInside he)
  case unique =>
    intro c' t' hv'
    have hprobe := (probe_varint hv').symm.trans (probe_varint hv)
    exact (Prod.mk.inj (Except.ok.inj hprobe)).1
  case unterminatedEnds =>
    rintro t hu ⟨c', t', he⟩
    cases (probe_unterminated hu).symm.trans (probe_endsInside he)

theorem probeUnsigned_eq_ok {m : Memory} {p c : Nat} (h : probeUnsigned m p = .ok c) : ∃ t, varintAt m p c t := by
  rcases position_cases m p with ⟨c', t, hv⟩ | ⟨t, hu⟩ | ⟨c', t, he⟩
  · cases (probeUnsigned_varint hv).symm.trans h
    exact ⟨t, hv⟩
  · cases (probeUnsigned_unterminated hu).symm.trans h
  · cases (probeUnsigned_endsInside he).symm.trans h

theorem probeSigned_eq_ok {m : Memory} {p c : Nat} (h : probeSigned m p = .ok c) : ∃ t, signedVarintAt m p c t := by
  rcases position_cases m p with ⟨c', t, hv⟩ | ⟨t, hu⟩ | ⟨c', t, he⟩
  · have hv' : signedVarintAt m p c' t := .inl hv
    cases (probeSigned_signedVarintAt hv').symm.trans h
    exact ⟨t, hv'⟩
  · have hu' : signedVarintAt m p 5 t := .inr ⟨rfl, hu⟩
    cases (probeSigned_signedVarintAt hu').symm.trans h
    exact ⟨t, hu'⟩
  · cases (probeSigned_endsInside he).symm.trans h

/-! ### the peeks against the stream decodes -/

/-- A peek and a stream decode after the same probe (R78). -/
theorem peek_agrees_streamDecode (s : State) (value : List Byte → Word) {count : Except Failure Nat}
    (hcount : (∃ f, count = .error f) ∨ ∃ c, 1 ≤ c ∧ c ≤ 5 ∧ s.pos.toNat + c ≤ s.stream.slen.val ∧ count = .ok c) :
    let u := s.finish (peekEffect s count)
    let r := s.finish (streamEffect s count value)
    u.pos = s.pos ∧ r.status = u.status ∧ r.rsize = u.rsize ∧
      (u.status = .ok → ∃ n, u.rsize = .known n ∧ r.pos.toNat = s.pos.toNat + n.toNat) ∧
      (u.status ≠ .ok → r.pos = s.pos) := by
  rcases streamEffect_cases s value hcount with ⟨f, rfl, heff⟩ | ⟨c, v, -, h5, hle, rfl, heff⟩ <;> rw [heff]
  · exact ⟨rfl, rfl, rfl, fun hok => absurd hok f.status_ne_ok, fun _ => rfl⟩
  · have hslen := s.stream.slen.isLt
    have hpos : (BitVec.ofNat 32 (s.pos.toNat + c)).toNat = s.pos.toNat + c := Nat.mod_eq_of_lt (by omega)
    refine ⟨rfl, rfl, rfl, fun _ => ⟨_, rfl, ?_⟩, fun hfail => absurd rfl hfail⟩
    rw [toNat_ofNat_size h5]
    exact hpos

/-- Settles O26: both commands of a pair start with the same probe, so they agree as `peek_agrees_streamDecode` says. -/
theorem peekAgreesWithStreamDecode : Obligations.PeekAgreesWithStreamDecode := by
  unfold Obligations.PeekAgreesWithStreamDecode
  rintro s peek decode (⟨rfl, b, rfl⟩ | ⟨rfl, rfl⟩)
  · exact ⟨_, _, exec_peeku s, exec_dstru b s, peek_agrees_streamDecode s _ (probeUnsigned_cases _ _)⟩
  · exact ⟨_, _, exec_peeks s, exec_dstrs s, peek_agrees_streamDecode s _ (probeSigned_cases _ _)⟩

/-! ### the register decodes against the stream decodes -/

/-- A peek that completes `OK` has a count, which it reports (R73, R74). -/
theorem peekEffect_ok_count {s : State} {count : Except Failure Nat} {n : BitVec 3}
    (hok : (s.finish (peekEffect s count)).status = .ok) (hsize : (s.finish (peekEffect s count)).rsize = .known n) :
    ∃ c, count = .ok c ∧ n = BitVec.ofNat 3 c := by
  cases count with
  | error f => exact absurd hok f.status_ne_ok
  | ok c => exact ⟨c, rfl, (Result.known.inj hsize).symm⟩

/-- A stream position holds one byte. -/
theorem bytesAt_unique {m : Memory} {p c : Nat} {t t' : Nat → Byte} (h : bytesAt m p c t) (h' : bytesAt m p c t') {i : Nat}
    (hi : i < c) : t' i = t i :=
  Except.ok.inj ((h' i hi).symm.trans (h i hi))

theorem varintAt_of_bytesAt {m : Memory} {p c : Nat} {t t' : Nat → Byte} (h : varintAt m p c t) (h' : bytesAt m p c t') :
    varintAt m p c t' := by
  obtain ⟨h1, h5, hbytes, hcont, hterm⟩ := h
  refine ⟨h1, h5, h', fun i hi => ?_, ?_⟩
  · rw [bytesAt_unique hbytes h' (by omega)]
    exact hcont i hi
  · rw [bytesAt_unique hbytes h' (by omega)]
    exact hterm

theorem signedVarintAt_of_bytesAt {m : Memory} {p c : Nat} {t t' : Nat → Byte} (h : signedVarintAt m p c t)
    (h' : bytesAt m p c t') : signedVarintAt m p c t' := by
  rcases h with hv | ⟨rfl, hbytes, hcont⟩
  · exact .inl (varintAt_of_bytesAt hv h')
  · refine .inr ⟨rfl, h', fun i hi => ?_⟩
    rw [bytesAt_unique hbytes h' hi]
    exact hcont i hi

/-- What a signed decode of a slice of `c` bytes asks of them (R69) holds of what PEEKS counted. -/
theorem continued_of_signedVarintAt {m : Memory} {p c : Nat} {t : Nat → Byte} (h : signedVarintAt m p c t) :
    continued t c ∧ (contBit (t (c - 1)) = false ∨ c = 5) := by
  rcases h with ⟨-, -, -, hcont, hterm⟩ | ⟨rfl, -, hcont⟩
  · exact ⟨hcont, .inl hterm⟩
  · exact ⟨fun i hi => hcont i (by omega), .inr rfl⟩

/-- Settles O27: a peek that completes `OK` found a varint, or for PEEKS five bytes without a terminator, and the bytes loaded into
`IB` are those of the stream (`varintAt_of_bytesAt`, `signedVarintAt_of_bytesAt`); so O8 and O23, and O14 and O24, give the
value and the size of the same bytes. -/
theorem registerDecodeEqualsStreamDecode : Obligations.RegisterDecodeEqualsStreamDecode := by
  unfold Obligations.RegisterDecodeEqualsStreamDecode
  intro s u v n peek hpeek hok hsize hilen hload
  refine ⟨?unsigned, ?signed⟩
  case unsigned =>
    rintro rfl b
    obtain rfl := Host.Outcome.next.inj ((exec_peeku s).symm.trans hpeek)
    obtain ⟨c, hcount, rfl⟩ := peekEffect_ok_count hok hsize
    obtain ⟨t, hvarint⟩ := probeUnsigned_eq_ok hcount
    obtain ⟨h1, h5, -⟩ := bytesAt_of_signedVarintAt (.inl hvarint)
    rw [toNat_ofNat_size h5] at hload
    have hlen : v.ilen.toNat = c := hilen ▸ toNat_setWidth_size h5
    have hloaded := varintAt_of_bytesAt hvarint hload
    obtain ⟨-, -, hstream, -⟩ := dstruDecodesOrFails
    obtain ⟨-, -, hslice, -⟩ := decuDecodesOrRejects
    obtain ⟨r, hr, hrok, hrval, hrsize, -⟩ := hstream b s c v.ibAt hloaded
    obtain ⟨-, -, -, hcont, hterm⟩ := hloaded
    obtain ⟨q, hq, hqok, hqval, hqsize, -⟩ := hslice b v c (by omega) h1 hlen.ge hcont hterm
    exact ⟨r, q, hr, hq, hqok, hrok, hqval.trans hrval.symm, by rw [hqsize, hrsize, hlen]⟩
  case signed =>
    rintro rfl
    obtain rfl := Host.Outcome.next.inj ((exec_peeks s).symm.trans hpeek)
    obtain ⟨c, hcount, rfl⟩ := peekEffect_ok_count hok hsize
    obtain ⟨t, hvarint⟩ := probeSigned_eq_ok hcount
    obtain ⟨h1, h5, -⟩ := bytesAt_of_signedVarintAt hvarint
    rw [toNat_ofNat_size h5] at hload
    have hlen : v.ilen.toNat = c := hilen ▸ toNat_setWidth_size h5
    have hloaded := signedVarintAt_of_bytesAt hvarint hload
    obtain ⟨-, hstream, -⟩ := dstrsDecodesOrFails
    obtain ⟨-, hslice, -⟩ := decsDecodesOrRejects
    obtain ⟨r, hr, hrok, hrval, hrsize, -⟩ := hstream s c v.ibAt hloaded
    obtain ⟨hcont, hend⟩ := continued_of_signedVarintAt hloaded
    obtain ⟨q, hq, hqok, hqval, hqsize, -⟩ := hslice v c (by omega) h1 hlen.ge hcont (hend.imp_right (by omega))
    exact ⟨r, q, hr, hq, hqok, hrok, hqval.trans hrval.symm, by rw [hqsize, hrsize, hlen]⟩

/-! ### what a command's result depends on -/

/-- Two streams that agree as far as a scan from position `p` reads: on each of the first five positions that only continued bytes
precede (R32). -/
def AgreesToVarint (m m' : Memory) (p : Nat) : Prop :=
  ∀ j < 5, (∀ k < j, ∃ x, memRead m (p + k) = .ok x ∧ contBit x = true) → memRead m' (p + j) = memRead m (p + j)

section
variable {m m' : Memory} {p c : Nat} {t : Nat → Byte}

theorem AgreesToVarint.memRead_eq (h : AgreesToVarint m m' p) (hbytes : bytesAt m p c t) (hc : c < 5)
    (hcont : ∀ i < c, contBit (t i) = true) : memRead m' (p + c) = memRead m (p + c) :=
  h c hc fun k hk => ⟨t k, hbytes k hk, hcont k hk⟩

theorem AgreesToVarint.bytesAt (h : AgreesToVarint m m' p) (hbytes : bytesAt m p c t) (h5 : c ≤ 5) (hcont : continued t c) :
    bytesAt m' p c t := by
  intro i hi
  rw [h.memRead_eq (c := i) (fun k hk => hbytes k (by omega)) (by omega) (fun k hk => hcont k (by omega))]
  exact hbytes i hi

theorem AgreesToVarint.varintAt (h : AgreesToVarint m m' p) (hv : varintAt m p c t) : varintAt m' p c t := by
  obtain ⟨h1, h5, hbytes, hcont, hterm⟩ := hv
  exact ⟨h1, h5, h.bytesAt hbytes h5 hcont, hcont, hterm⟩

theorem AgreesToVarint.unterminatedAt (h : AgreesToVarint m m' p) (hu : unterminatedAt m p t) : unterminatedAt m' p t :=
  ⟨h.bytesAt hu.1 le_rfl fun i hi => hu.2 i (by omega), hu.2⟩

theorem AgreesToVarint.endsInside (h : AgreesToVarint m m' p) (he : endsInside m p c t) : endsInside m' p c t := by
  obtain ⟨h5, hbytes, hcont, hend⟩ := he
  refine ⟨h5, h.bytesAt hbytes h5.le fun i hi => hcont i (by omega), hcont, ?_⟩
  have hread := (h.memRead_eq hbytes h5 hcont).trans (memRead_end hend)
  rcases memRead_cases m' (p + c) with ⟨b, hb, -⟩ | ⟨-, hle⟩
  · cases hb.symm.trans hread
  · exact hle

/-- The probe reads no further (R32, R72). -/
theorem AgreesToVarint.probe_eq (h : AgreesToVarint m m' p) : probe m' p = probe m p := by
  rcases position_cases m p with ⟨c, t, hv⟩ | ⟨t, hu⟩ | ⟨c, t, he⟩
  · rw [probe_varint hv, probe_varint (h.varintAt hv)]
  · rw [probe_unterminated hu, probe_unterminated (h.unterminatedAt hu)]
  · rw [probe_endsInside he, probe_endsInside (h.endsInside he)]

theorem AgreesToVarint.probeUnsigned_eq (h : AgreesToVarint m m' p) : probeUnsigned m' p = probeUnsigned m p := by
  rw [probeUnsigned, probeUnsigned, h.probe_eq]

theorem AgreesToVarint.probeSigned_eq (h : AgreesToVarint m m' p) : probeSigned m' p = probeSigned m p := by
  rw [probeSigned, probeSigned, h.probe_eq]

/-- The read phase reads what the probe counted, and no further (R75). -/
theorem AgreesToVarint.readn_eq (h : AgreesToVarint m m' p) (hv : signedVarintAt m p c t) : readn m' p c = readn m p c := by
  obtain ⟨-, h5, hbytes⟩ := bytesAt_of_signedVarintAt hv
  obtain ⟨hcont, -⟩ := continued_of_signedVarintAt hv
  rw [readn_bytesAt hbytes, readn_bytesAt (h.bytesAt hbytes h5 hcont)]

end

theorem peekEffect_of_pos {s u : State} (hpos : u.pos = s.pos) (count : Except Failure Nat) :
    peekEffect u count = peekEffect s count := by
  simp only [peekEffect, hpos]

theorem streamEffect_of_agrees {s u : State} (hpos : u.pos = s.pos) (h : AgreesToVarint s.stream u.stream s.pos.toNat)
    {count : Except Failure Nat} (hcount : ∀ c, count = .ok c → ∃ t, signedVarintAt s.stream s.pos.toNat c t)
    (value : List Byte → Word) : streamEffect u count value = streamEffect s count value := by
  cases count with
  | error f => rfl
  | ok c =>
    obtain ⟨t, hv⟩ := hcount c rfl
    simp only [streamEffect, hpos, h.readn_eq hv]

/-- The effect of a stream command is a function of `POS` and of the stream as far as the scan reads it (R32). -/
theorem exec_stream_of_agrees {i : Instr} (hi : i = .peeku ∨ i = .peeks ∨ i = .dstrs ∨ ∃ b, i = .dstru b) {s u : State}
    (hpos : u.pos = s.pos) (h : AgreesToVarint s.stream u.stream s.pos.toNat) :
    ∃ o, exec i s = .next (s.finish o) ∧ exec i u = .next (u.finish o) := by
  rcases hi with rfl | rfl | rfl | ⟨b, rfl⟩
  · exact ⟨_, exec_peeku s, by rw [exec_peeku, hpos, h.probeUnsigned_eq, peekEffect_of_pos hpos]⟩
  · exact ⟨_, exec_peeks s, by rw [exec_peeks, hpos, h.probeSigned_eq, peekEffect_of_pos hpos]⟩
  · refine ⟨_, exec_dstrs s, ?_⟩
    rw [exec_dstrs, hpos, h.probeSigned_eq, streamEffect_of_agrees hpos h fun c => probeSigned_eq_ok]
  · refine ⟨_, exec_dstru b s, ?_⟩
    rw [exec_dstru, hpos, h.probeUnsigned_eq,
      streamEffect_of_agrees hpos h fun c hc => (probeUnsigned_eq_ok hc).imp fun _ => Or.inl]

/-- Where nothing but an effect and the old `POS` go in, nothing else comes out (R83, R84). -/
theorem finish_sameResults {s u t v : State} {o : Except Failure Effect} (hpos : u.pos = s.pos)
    (ht : Host.Outcome.next (φ := Fault) (ρ := Refusal) (s.finish o) = .next t)
    (hv : Host.Outcome.next (φ := Fault) (ρ := Refusal) (u.finish o) = .next v) :
    v.status = t.status ∧ v.rval = t.rval ∧ v.rsize = t.rsize ∧ v.ob = t.ob ∧ v.pos = t.pos := by
  cases ht
  cases hv
  cases o with
  | error f => exact ⟨rfl, rfl, rfl, rfl, hpos⟩
  | ok e => exact ⟨rfl, rfl, rfl, rfl, rfl⟩

/-- Settles O32: the probe and the read phase agree on streams that agree as far as the scan reads (`exec_stream_of_agrees`), so
both states complete with the same effect (`finish_sameResults`). -/
theorem streamCommandsReadNoFurtherThanTheVarint : Obligations.StreamCommandsReadNoFurtherThanTheVarint := by
  unfold Obligations.StreamCommandsReadNoFurtherThanTheVarint
  intro s u t v i hi hpos hagree ht hv
  obtain ⟨o, hs, hu⟩ := exec_stream_of_agrees hi hpos hagree
  exact finish_sameResults hpos (hs.symm.trans ht) (hu.symm.trans hv)

/-- The effect of a command is a function of the operands, `POS` and the stream (R4, R26). -/
theorem exec_of_operands (i : Instr) {s u : State} (hvin : u.vin = s.vin) (hilen : u.ilen = s.ilen) (hib : u.ib = s.ib)
    (hpos : u.pos = s.pos) (hstream : u.stream = s.stream) :
    ∃ o, exec i s = .next (s.finish o) ∧ exec i u = .next (u.finish o) := by
  have hslice : u.slice = s.slice := by simp only [State.slice, hilen, hib]
  have hagree : AgreesToVarint s.stream u.stream s.pos.toNat := fun _ _ _ => by rw [hstream]
  cases i with
  | encu b => exact ⟨_, exec_encu b s, by rw [exec_encu, hvin, hpos]⟩
  | encs => exact ⟨_, exec_encs s, by rw [exec_encs, hvin, hpos]⟩
  | decu b => exact ⟨_, exec_decu b s, by simp only [exec_decu, decuEffect, hslice, hilen, hpos]⟩
  | decs => exact ⟨_, exec_decs s, by simp only [exec_decs, decsEffect, hslice, hilen, hpos]⟩
  | peeku | peeks | dstru b | dstrs => exact exec_stream_of_agrees (by simp) hpos hagree

/-- Settles O40: a decoded command has one effect on both states (`exec_of_operands`), an illegal word the same failure, and what
a completion writes is a function of that (`finish_sameResults`). -/
theorem commandsDependOnOperandsOnly : Obligations.CommandsDependOnOperandsOnly := by
  unfold Obligations.CommandsDependOnOperandsOnly
  intro w s u t v hvin hilen hib hpos hstream ht hv
  cases hdec : decode w with
  | error e =>
    rw [runCommand_error hdec] at ht hv
    exact finish_sameResults (o := .error .illegalCommand) hpos ht hv
  | ok i =>
    rw [runCommand_ok hdec] at ht hv
    obtain ⟨o, hs, hu⟩ := exec_of_operands i hvin hilen hib hpos hstream
    exact finish_sameResults hpos (hs.symm.trans ht) (hu.symm.trans hv)

/-- The slice is a function of `ILEN` and the bytes below it (R10, R11). -/
theorem slice_of_bytes {s u : State} (hilen : u.ilen = s.ilen)
    (hbytes : s.ilen.toNat ≤ 5 → ∀ j < s.ilen.toNat, u.ibAt j = s.ibAt j) : u.slice = s.slice := by
  by_cases hlen : s.ilen.toNat = 0 ∨ 5 < s.ilen.toNat
  · rw [slice_eq_error hlen, slice_eq_error (hilen ▸ hlen)]
  · rw [slice_eq_map_ibAt (s := s) (by omega) (by omega), slice_eq_map_ibAt (s := u) (by rw [hilen]; omega) (by rw [hilen]; omega),
      hilen, List.map_congr_left fun j hj => hbytes (by omega) j (List.mem_range.1 hj)]

/-- Settles O41: both states have the same slice (`slice_of_bytes`), and a register decode looks at nothing else but `ILEN` and the
`POS` it leaves. -/
theorem bytesOutsideTheSliceDoNotMatter : Obligations.BytesOutsideTheSliceDoNotMatter := by
  unfold Obligations.BytesOutsideTheSliceDoNotMatter
  intro i s u t v hi hilen hbytes ht hv
  have hslice := slice_of_bytes hilen hbytes
  rcases hi with rfl | ⟨b, rfl⟩
  · cases (exec_decs s).symm.trans ht
    cases (exec_decs u).symm.trans hv
    simp only [decsEffect, hslice, hilen]
    cases s.slice with
    | error f => exact ⟨rfl, rfl, rfl⟩
    | ok l => exact ⟨rfl, rfl, rfl⟩
  · cases (exec_decu b s).symm.trans ht
    cases (exec_decu b u).symm.trans hv
    simp only [decuEffect, hslice, hilen]
    cases s.slice with
    | error f => exact ⟨rfl, rfl, rfl⟩
    | ok l =>
      dsimp only
      cases decodeUnsigned b l <;> exact ⟨rfl, rfl, rfl⟩

end Sys2Proof.Machine
